-- ==== Sys2Proof/Word.lean ====
section
/-! DEFINITION. The two word types of the machine (00_scope R6, R8, R14): every value is unsigned. -/

namespace Sys2Proof

/-- A nibble, "a 4-bit value, range 0–15" (R14): registers, pc, immediates, port values. -/
abbrev Nibble := BitVec 4

/-- An instruction byte of the ROM (R6: instruction width 8 bits). -/
abbrev Byte := BitVec 8

end Sys2Proof
end

