-- ==== Sys2Proof/Config.lean ====
section
/-! DEFINITION. What is fixed for the machine (00_scope R6, R7). No engine parameter is left open, so there is no
free value. The launch configuration of R37 (`rom`, `rom_len`, `port_input`) stands in `State` (assumption log 1). -/

namespace Sys2Proof.Config

/-- ROM capacity: 16 bytes, addresses 0 to 15 (R6, R34). -/
def romCapacity : Nat := 16

/-- The default of the toolchain's one parameter `strict_mnemonics` (R7, R90, decision D11). -/
def strictMnemonics : Bool := false

end Sys2Proof.Config
end

