-- ==== Sys2Proof/Machine/State.lean ====
section
/-! DEFINITION. The machine's state as plain data (10_state R37), its one fault, its refusals and the reset state. -/

namespace Sys2Proof.Machine

/-- The two data registers; there are exactly two (R23). -/
inductive Reg where
  /-- Register A (R21). -/
  | A
  /-- Register B (R22). -/
  | B
deriving DecidableEq, Repr

/-- The engine status (R35). HALTED and FAULTED are terminal. -/
inductive Status where
  /-- The engine will take a step. -/
  | running
  /-- The run ended successfully. -/
  | halted
  /-- The run ended with a DecodeError. -/
  | faulted
deriving DecidableEq, Repr

/-- The block's faults: DecodeError is the only one (R161). -/
inductive Fault where
  /-- Raised by the DECODE phase of a step whose fetched byte has a reserved opcode (R160): `pc` is the address of
  the byte, `ir` the byte. It is recorded in `State.fault` by a next state with status FAULTED (assumption log 4).
  Safe: the spec's own outcome, and it can prove no false success. -/
  | decodeError (pc : Nibble) (ir : Byte)
deriving DecidableEq, Repr

/-- Where the model gives no next state. -/
inductive Refusal where
  /-- Raised by an arm of `exec` for an instruction without a meaning; no arm does. Safe. -/
  | notModelled (mnemonic : String)
  /-- Raised by the step for `pc < rom_len` with no byte listed at `pc`: the spec's ROM holds `rom_len` bytes (R32),
  so no state the host can launch reaches it (assumption log 5). Safe: the machine stops. -/
  | romByteAbsent (addr : Nibble)
  /-- Raised by the host's load of an image of more than 16 bytes, which has no state and no run (R34, R163,
  assumption log 6). Safe: the machine never starts. -/
  | romImageTooLong (length : Nat)
deriving DecidableEq, Repr

/-- Memory as address and byte cells, addresses strictly rising (assumption log 5). -/
abbrev Memory := List Host.Cell

/-- Everything the spec gives the machine: the State of R37 and the launch configuration of R37, which no step
changes (assumption log 1). -/
structure State where
  /-- Register A (R21). -/
  a : Nibble
  /-- Register B (R22). -/
  b : Nibble
  /-- The carry flag (R25); `true` is 1. -/
  carry : Bool
  /-- The program counter (R26). -/
  pc : Nibble
  /-- The port's output nibble (R30). -/
  portOutput : Nibble
  /-- The values written by OUT, first written first (R31). -/
  outTrace : List Nibble
  /-- The engine status (R35). -/
  status : Status
  /-- The fault record (R36). -/
  fault : Option Fault
  /-- The instruction ROM (R32); read-only during execution (R52). -/
  rom : Memory
  /-- The number of ROM bytes, 0 to 16 (R32). -/
  romLen : Fin 17
  /-- The port's input nibble, fixed for the run (R29). -/
  portInput : Nibble
deriving DecidableEq, Repr

/-- The machine right after reset (R180) with nothing launched: an empty ROM and input 0 (DESIGN CHOICE, assumption
log 2); a program is loaded by the host (R183). -/
def State.reset : State where
  a := 0
  b := 0
  carry := false
  pc := 0
  portOutput := 0
  outTrace := []
  status := .running
  fault := none
  rom := []
  romLen := 0
  portInput := 0

end Sys2Proof.Machine
end

