-- ==== Sys2Proof/Machine/Ops.lean ====
section
/-! DEFINITION. The named operations over memory, registers, port, pc and status that every meaning is built from. -/

namespace Sys2Proof.Machine

/-! ### The ROM -/

/-- What an unlisted address reads as: no value (R33; DESIGN CHOICE, assumption log 5). -/
def Memory.unlisted : Option Byte := none

/-- `MemRead(addr, 1)` (R12, R51). -/
def Memory.read : Memory → Nat → Option Byte
  | [], _ => Memory.unlisted
  | cell :: rest, addr => if cell.1 = addr then some cell.2 else Memory.read rest addr

/-- Put one byte in place, keeping the addresses rising. The machine never calls it: there is no MemWrite (R12, R52);
the host's load does. -/
def Memory.store : Memory → Nat → Byte → Memory
  | [], addr, v => [(addr, v)]
  | cell :: rest, addr, v =>
    if addr < cell.1 then (addr, v) :: cell :: rest
    else if addr = cell.1 then (addr, v) :: rest
    else cell :: Memory.store rest addr v

/-- The canonical form: addresses strictly rising. No byte equals what an unlisted address reads as. -/
def Memory.wf : Memory → Bool
  | [] => true
  | [_] => true
  | c :: d :: rest => decide (c.1 < d.1) && Memory.wf (d :: rest)

/-- The cells of an image laid out from address `base` (R56). -/
def cellsFrom : Nat → List Byte → Memory
  | _, [] => []
  | base, v :: rest => (base, v) :: cellsFrom (base + 1) rest

/-- Give every address below `n` that holds no byte the byte 0 (used only to place a word past `rom_len`,
assumption log 17). -/
def Memory.padBelow : Nat → Memory → Memory
  | 0, m => m
  | n + 1, m =>
    match Memory.read (Memory.padBelow n m) n with
    | some _ => Memory.padBelow n m
    | none => Memory.store (Memory.padBelow n m) n 0

/-! ### Registers, carry and port -/

/-- `x[r]` (R11). -/
def State.readReg (s : State) : Reg → Nibble
  | .A => s.a
  | .B => s.b

/-- `x[r] <- v` (R11). -/
def State.writeReg (s : State) (r : Reg) (v : Nibble) : State :=
  match r with
  | .A => { s with a := v }
  | .B => { s with b := v }

/-- `carry <- v` (R11). -/
def State.setCarry (s : State) (v : Bool) : State := { s with carry := v }

/-- `port.output <- v`, which also appends `v` to the output trace (R11, R31). -/
def State.writePort (s : State) (v : Nibble) : State :=
  { s with portOutput := v, outTrace := s.outTrace ++ [v] }

/-! ### Control -/

/-- `pc <- target` (R11). -/
def State.setPc (s : State) (target : Nibble) : State := { s with pc := target }

/-- `status <- v`. -/
def State.setStatus (s : State) (v : Status) : State := { s with status := v }

/-- `zext_5(pc) >= rom_len` (R101, R110). -/
def State.atEnd (s : State) : Bool := decide (s.romLen.val ≤ s.pc.toNat)

/-- The HALT check (R110), run after every executed instruction. -/
def State.haltCheck (s : State) (ovf : Bool) : State :=
  if ovf || s.atEnd then s.setStatus .halted else s

/-- `zext_5(pc) + 1` (R109, decision D4, assumption log 7). -/
def pcSuccessor (pc : Nibble) : BitVec 5 := pc.setWidth 5 + 1

/-- ADVANCE and the HALT check (R108, R109, R110). -/
def State.advance (s : State) : State :=
  (s.setPc ((pcSuccessor s.pc).extractLsb' 0 4)).haltCheck ((pcSuccessor s.pc).getLsbD 4)

/-- A taken jump: pc is the target, no increment follows, and the HALT check runs (R108, R110). -/
def State.jumpTo (s : State) (target : Nibble) : State := (s.setPc target).haltCheck false

/-- `raise DecodeError(pc, ir)` (R12, R160): the block's one exception. Nothing else changes. -/
def State.raiseDecodeError (s : State) (ir : Byte) : State :=
  { s with status := .faulted, fault := some (.decodeError s.pc ir) }

/-- The host's `rst` (R40, R180), the only way out of HALTED and FAULTED (R168): every element of State takes its
reset value and the launch configuration stays (R181). There is no return from exception. -/
def State.hostReset (s : State) : State :=
  { State.reset with rom := s.rom, romLen := s.romLen, portInput := s.portInput }

/-- The launch configuration of a ROM image and an input (R183), before the reset that starts the run. -/
def State.withLaunch (s : State) (image : List Byte) (input : Nibble) : State :=
  { s with rom := cellsFrom 0 image, romLen := Fin.ofNat 17 image.length, portInput := input }

/-- Place one byte where the next fetch reads and let the next step be a fetch (assumption log 17). -/
def State.placeAtPc (s : State) (ir : Byte) : State :=
  { s with
    rom := Memory.store (Memory.padBelow s.pc.toNat s.rom) s.pc.toNat ir
    romLen := if s.atEnd then Fin.ofNat 17 (s.pc.toNat + 1) else s.romLen
    status := .running }

end Sys2Proof.Machine
end

