-- ==== Sys2Proof/Machine/Flags.lean ====
section
/-! DEFINITION. The 4-bit adder with carry-out and the carry rule (42_add R130 to R132, 40_cycle R105). -/

namespace Sys2Proof.Machine

/-- `zext_5(x) + zext_5(y)` (R130): there is no carry-in (R106). -/
def nibbleSum (x y : Nibble) : BitVec 5 := x.setWidth 5 + y.setWidth 5

/-- `sum[3:0]`, the stored result (R107, R132). -/
def sumResult (x y : Nibble) : Nibble := (nibbleSum x y).extractLsb' 0 4

/-- `sum[4]`, the carry-out (R132). -/
def sumCarry (x y : Nibble) : Bool := (nibbleSum x y).getLsbD 4

/-- `carry <- 0`, by every instruction other than ADD (R105). -/
def State.clearCarry (s : State) : State := s.setCarry false

end Sys2Proof.Machine
end

