-- ==== Sys2Proof/Machine/Arithmetic.lean ====
section
/-! DEFINITION. ADD (42_add R130, R131). -/

namespace Sys2Proof.Machine

/-- Add an immediate to a register: the low four bits are stored and the carry is the fifth (R130, R131). -/
def State.addInto (s : State) (r : Reg) (im : Nibble) : State :=
  ((s.writeReg r (sumResult (s.readReg r) im)).setCarry (sumCarry (s.readReg r) im)).advance

/-- `ADD A,im` (R130). -/
def execAddAIm (im : Nibble) (s : State) : Host.Outcome State Fault Refusal := .next (s.addInto .A im)

/-- `ADD B,im` (R131). -/
def execAddBIm (im : Nibble) (s : State) : Host.Outcome State Fault Refusal := .next (s.addInto .B im)

end Sys2Proof.Machine
end

