-- ==== Sys2Proof/Machine/Jump.lean ====
section
/-! DEFINITION. JMP and JNC (43_jump R140, R141). -/

namespace Sys2Proof.Machine

/-- `JMP im` (R140). -/
def execJmp (im : Nibble) (s : State) : Host.Outcome State Fault Refusal := .next (s.clearCarry.jumpTo im)

/-- `JNC im`: the test reads the carry from before the clear (R104, R141, R186). -/
def execJnc (im : Nibble) (s : State) : Host.Outcome State Fault Refusal :=
  .next (if s.carry then s.clearCarry.advance else s.clearCarry.jumpTo im)

end Sys2Proof.Machine
end

