-- ==== Sys2Proof/Machine/Operands.lean ====
section
/-! DEFINITION. The operand forms: an immediate, a register, the port's input (30_encoding R72, R73; 10_state R29). -/

namespace Sys2Proof.Machine

/-- Where an instruction takes its source value from. -/
inductive Operand where
  /-- The immediate as it stands, unsigned (R72). -/
  | imm (v : Nibble)
  /-- A register, as it was at the start of the step (R11). -/
  | reg (r : Reg)
  /-- The port's input nibble (R29). -/
  | portInput
deriving DecidableEq, Repr

/-- The value of an operand. -/
def Operand.value (s : State) : Operand → Nibble
  | .imm v => v
  | .reg r => s.readReg r
  | .portInput => s.portInput

end Sys2Proof.Machine
end

