-- ==== Sys2Proof/Machine/Transfer.lean ====
section
/-! DEFINITION. MOV (41_mov R120 to R123). -/

namespace Sys2Proof.Machine

/-- Move a value into a register, clear the carry, advance: MOV and IN. -/
def State.moveInto (s : State) (dst : Reg) (src : Operand) : State :=
  ((s.writeReg dst (src.value s)).clearCarry).advance

/-- `MOV A,im` (R120). -/
def execMovAIm (im : Nibble) (s : State) : Host.Outcome State Fault Refusal := .next (s.moveInto .A (.imm im))

/-- `MOV B,im` (R121). -/
def execMovBIm (im : Nibble) (s : State) : Host.Outcome State Fault Refusal := .next (s.moveInto .B (.imm im))

/-- `MOV A,B`: `x[A] <- x[B]` (R122). -/
def execMovAB (s : State) : Host.Outcome State Fault Refusal := .next (s.moveInto .A (.reg .B))

/-- `MOV B,A`: `x[B] <- x[A]` (R123). -/
def execMovBA (s : State) : Host.Outcome State Fault Refusal := .next (s.moveInto .B (.reg .A))

end Sys2Proof.Machine
end

