-- ==== Sys2Proof/Machine/PortIO.lean ====
section
/-! DEFINITION. IN and OUT (44_io R150 to R153). -/

namespace Sys2Proof.Machine

/-- Write a value to the port's output and the trace, clear the carry, advance (R152, R153). -/
def State.outputFrom (s : State) (src : Operand) : State :=
  ((s.writePort (src.value s)).clearCarry).advance

/-- `IN A` (R150). -/
def execInA (s : State) : Host.Outcome State Fault Refusal := .next (s.moveInto .A .portInput)

/-- `IN B` (R151). -/
def execInB (s : State) : Host.Outcome State Fault Refusal := .next (s.moveInto .B .portInput)

/-- `OUT B` (R152). -/
def execOutB (s : State) : Host.Outcome State Fault Refusal := .next (s.outputFrom (.reg .B))

/-- `OUT im` (R153). -/
def execOutIm (im : Nibble) (s : State) : Host.Outcome State Fault Refusal := .next (s.outputFrom (.imm im))

end Sys2Proof.Machine
end

