-- ==== Sys2Proof/Syntax.lean ====
section
/-! DEFINITION. The instruction set: the 12 rows of spec/opcode_table.json in the table's order (30_encoding R76).
Registers are named by the opcode itself (R73), so a constructor carries an immediate or nothing. -/

namespace Sys2Proof

/-- One instruction. The five opcodes that take no immediate (R74) carry none: their low nibble is ignored. -/
inductive Instr where
  /-- `ADD A,im` (R130). -/
  | addAIm (im : Nibble)
  /-- `MOV A,B`: A receives B (R122). -/
  | movAB
  /-- `IN A` (R150). -/
  | inA
  /-- `MOV A,im` (R120). -/
  | movAIm (im : Nibble)
  /-- `MOV B,A`: B receives A (R123). -/
  | movBA
  /-- `ADD B,im` (R131). -/
  | addBIm (im : Nibble)
  /-- `IN B` (R151). -/
  | inB
  /-- `MOV B,im` (R121). -/
  | movBIm (im : Nibble)
  /-- `OUT B` (R152). -/
  | outB
  /-- `OUT im` (R153). -/
  | outIm (im : Nibble)
  /-- `JNC im`, an absolute target (R72, R141). -/
  | jnc (im : Nibble)
  /-- `JMP im`, an absolute target (R72, R140). -/
  | jmp (im : Nibble)
deriving DecidableEq, Repr

end Sys2Proof
end

