-- ==== Sys2Proof/Machine/Dispatch.lean ====
section
/-! DEFINITION. EXECUTE, ADVANCE and the HALT check of each instruction (40_cycle R103, R108 to R111): one arm per
constructor. -/

namespace Sys2Proof.Machine

def exec (i : Instr) (s : State) : Host.Outcome State Fault Refusal :=
  match i with
  | .addAIm im => Sys2Proof.Machine.execAddAIm im s
  | .movAB => Sys2Proof.Machine.execMovAB s
  | .inA => Sys2Proof.Machine.execInA s
  | .movAIm im => Sys2Proof.Machine.execMovAIm im s
  | .movBA => Sys2Proof.Machine.execMovBA s
  | .addBIm im => Sys2Proof.Machine.execAddBIm im s
  | .inB => Sys2Proof.Machine.execInB s
  | .movBIm im => Sys2Proof.Machine.execMovBIm im s
  | .outB => Sys2Proof.Machine.execOutB s
  | .outIm im => Sys2Proof.Machine.execOutIm im s
  | .jnc im => Sys2Proof.Machine.execJnc im s
  | .jmp im => Sys2Proof.Machine.execJmp im s

end Sys2Proof.Machine
end

