-- ==== Sys2Proof/WellFormed.lean ====
section
/-! DEFINITION. Which raw terms stand for something. The type `Instr` already bounds every operand (an immediate is a
`Nibble`), so each term of `Instr` is well formed; what can be ill formed is the raw instruction a byte is split into
(a reserved opcode, 30_encoding R77) and a ROM image (over 16 bytes, 10_state R34). -/

namespace Sys2Proof

/-- An instruction byte split into its two fields (R70, R71). -/
structure Fields where
  /-- The opcode, `ir[7:4]`. -/
  op : Nibble
  /-- The immediate, `ir[3:0]`; always extracted. -/
  im : Nibble
deriving DecidableEq, Repr

/-- The four opcode values with no operation (R77). -/
def reservedOpcodes : List Nibble := [0b1000, 0b1010, 0b1100, 0b1101]

/-- A raw instruction is well formed when its opcode is one of the 12 defined codes (R77). -/
def Fields.wellFormed (f : Fields) : Bool := !(reservedOpcodes.contains f.op)

/-- A ROM image is well formed when it fits the ROM; a longer one is "a construction-time violation" (R34, R163). -/
def imageWellFormed (image : List Byte) : Bool := decide (image.length ≤ Config.romCapacity)

end Sys2Proof
end

