-- ==== Sys2Proof/Decode.lean ====
section
/-! DEFINITION. The decoder, total on every byte, and the encoder, both from the opcode map of 30_encoding R76. -/

namespace Sys2Proof

/-- Why a byte is no instruction. -/
inductive DecodeReject where
  /-- The opcode is one of the four reserved codes (R77). -/
  | reservedOpcode (op : Nibble)
deriving DecidableEq, Repr

/-- `op <- ir[7:4]` (R71). -/
def opField (ir : Byte) : Nibble := ir.extractLsb' 4 4

/-- `im <- ir[3:0]` (R71). -/
def imField (ir : Byte) : Nibble := ir.extractLsb' 0 4

/-- DECODE's split of the fetched byte (R71). -/
def fieldsOf (ir : Byte) : Fields := ⟨opField ir, imField ir⟩

/-- The opcode map (R76). The opcodes that take no immediate ignore `im` (R74, decision D8, assumption log 8); the
data flow of `0001` and `0100` is C2's (assumption log 13). -/
def decodeFields (f : Fields) : Except DecodeReject Instr :=
  match f.op with
  | 0b0000#4 => .ok (.addAIm f.im)
  | 0b0001#4 => .ok .movAB
  | 0b0010#4 => .ok .inA
  | 0b0011#4 => .ok (.movAIm f.im)
  | 0b0100#4 => .ok .movBA
  | 0b0101#4 => .ok (.addBIm f.im)
  | 0b0110#4 => .ok .inB
  | 0b0111#4 => .ok (.movBIm f.im)
  | 0b1001#4 => .ok .outB
  | 0b1011#4 => .ok (.outIm f.im)
  | 0b1110#4 => .ok (.jnc f.im)
  | 0b1111#4 => .ok (.jmp f.im)
  | op => .error (.reservedOpcode op)

/-- DECODE (R102): the instruction a byte stands for, or the reserved opcode it holds. -/
def decode (ir : Byte) : Except DecodeReject Instr := decodeFields (fieldsOf ir)

/-- The opcode of each instruction (R76). -/
def opcodeOf : Instr → Nibble
  | .addAIm _ => 0b0000
  | .movAB => 0b0001
  | .inA => 0b0010
  | .movAIm _ => 0b0011
  | .movBA => 0b0100
  | .addBIm _ => 0b0101
  | .inB => 0b0110
  | .movBIm _ => 0b0111
  | .outB => 0b1001
  | .outIm _ => 0b1011
  | .jnc _ => 0b1110
  | .jmp _ => 0b1111

/-- The low nibble written for each instruction: its immediate, or 0 where it takes none (R70, R74). -/
def immediateOf : Instr → Nibble
  | .addAIm im => im
  | .movAB => 0
  | .inA => 0
  | .movAIm im => im
  | .movBA => 0
  | .addBIm im => im
  | .inB => 0
  | .movBIm im => im
  | .outB => 0
  | .outIm im => im
  | .jnc im => im
  | .jmp im => im

/-- The byte of an instruction: opcode in bits 7..4, immediate or 0 in bits 3..0 (R70). -/
def encode (i : Instr) : Byte := opcodeOf i ++ immediateOf i

/-- The decoder on a row of the opcode table: an instruction is its first byte, bits 7..0 (R70, R75). -/
def decodeTableWord (nbits w : Nat) : Option Instr :=
  (decode (BitVec.ofNat 8 (w % 2 ^ nbits))).toOption

end Sys2Proof
end

