-- ==== Sys2Proof/Machine/Fetch.lean ====
section
/-! DEFINITION. FETCH and DECODE: what the next step finds (40_cycle R101, R102; 60_exceptions R166). -/

namespace Sys2Proof.Machine

/-- What the next step finds, in the order of its checks (R166). -/
inductive Fetched where
  /-- Status is not RUNNING: the request to step is ignored (R40, R111). -/
  | idle
  /-- pc is at or past `rom_len`: the step halts (R101). -/
  | pastEnd
  /-- No byte is listed below `rom_len` (assumption log 5). -/
  | absent
  /-- The byte's opcode is reserved (R102). -/
  | undefined (ir : Byte)
  /-- A defined instruction (R102). -/
  | instruction (i : Instr)
deriving DecidableEq, Repr

/-- FETCH and DECODE of a RUNNING engine (R101, R102). -/
def State.fetchRunning (s : State) : Fetched :=
  if s.atEnd then .pastEnd
  else
    match s.rom.read s.pc.toNat with
    | none => .absent
    | some ir =>
      match decode ir with
      | .ok i => .instruction i
      | .error _ => .undefined ir

/-- What the next step finds. -/
def State.fetched (s : State) : Fetched :=
  match s.status with
  | .running => s.fetchRunning
  | .halted => .idle
  | .faulted => .idle

end Sys2Proof.Machine
end

