-- ==== Sys2Proof/Machine/Step.lean ====
section
/-! DEFINITION. One step of the engine (40_cycle R100, R111). -/

namespace Sys2Proof.Machine

/-- One `step_req` (R40): FETCH, DECODE, then the instruction's EXECUTE, ADVANCE and HALT check. A DecodeError is a
next state (assumption log 4), and a terminal state stays as it is (assumption log 3). -/
def step (s : State) : Host.Outcome State Fault Refusal :=
  match s.fetched with
  | .idle => .next s
  | .pastEnd => .next (s.setStatus .halted)
  | .absent => .refused (.romByteAbsent s.pc)
  | .undefined ir => .next (s.raiseDecodeError ir)
  | .instruction i => exec i s

/-- `s` with the instruction byte `w` where the next step fetches (assumption log 17): it stands for the host's load
of a program (R183). -/
def State.withFetchWord (s : State) (nbits w : Nat) : State :=
  s.placeAtPc (BitVec.ofNat 8 (w % 2 ^ nbits))

end Sys2Proof.Machine
end

