-- ==== Sys2Proof/Machine/Assembler.lean ====
section
/-! DEFINITION. The toolchain (30_encoding R85 to R99): parser, assembler and disassembler, which produce and print
ROM bytes. They are no part of the block (00_scope R4); no definition of the engine uses them. -/

namespace Sys2Proof.Machine

/-- One assembly instruction (R86). -/
inductive Token where
  | mov (r : Reg) (im : Nibble)
  | movAB
  | movBA
  | add (r : Reg) (im : Nibble)
  | jmp (im : Nibble)
  | jnc (im : Nibble)
  | inp (r : Reg)
  | outIm (im : Nibble)
  | outB
deriving DecidableEq, Repr

/-- The toolchain's errors (R90, R93, R94, R164); the block never raises them. The spec names the three error kinds
and the causes of ParseError; their arguments are the model's (assumption log 16). -/
inductive ToolchainError where
  /-- ParseError: "an expected operand is missing" (R93). -/
  | missingOperand
  /-- ParseError: a word in an immediate's place is not four binary digits (R91). -/
  | badImmediate (word : String)
  /-- ParseError: a word in a register's place is neither `A` nor `B` (R92). -/
  | badRegister (word : String)
  /-- UnknownMnemonic, under `strict_mnemonics` alone (R90). -/
  | unknownMnemonic (word : String)
  /-- CompileError EmptyProgram (R94). -/
  | emptyProgram
deriving DecidableEq, Repr

/-! ### Parser -/

/-- The six mnemonics (R87). -/
inductive Mnemonic where
  | mov
  | add
  | jmp
  | jnc
  | inp
  | out
deriving DecidableEq, Repr

/-- The mnemonic a word is, "case-sensitive, exact match" (R87). -/
def mnemonicOf (w : String) : Option Mnemonic :=
  if w = "mov" then some .mov
  else if w = "add" then some .add
  else if w = "jmp" then some .jmp
  else if w = "jnc" then some .jnc
  else if w = "in" then some .inp
  else if w = "out" then some .out
  else none

/-- A binary digit (R91). -/
def bitOfChar (c : Char) : Option (BitVec 1) :=
  if c = '0' then some 0 else if c = '1' then some 1 else none

/-- The value of a word of exactly four binary digits, most significant first (R91, decision D12). -/
def immOfWord (w : String) : Option Nibble :=
  match w.toList with
  | [c3, c2, c1, c0] => do
    let b3 ← bitOfChar c3
    let b2 ← bitOfChar c2
    let b1 ← bitOfChar c1
    let b0 ← bitOfChar c0
    pure (b3 ++ b2 ++ b1 ++ b0)
  | _ => none

/-- An immediate operand (R91). -/
def parseImm (w : String) : Except ToolchainError Nibble :=
  match immOfWord w with
  | some im => .ok im
  | none => .error (.badImmediate w)

/-- A register operand, case-sensitive (R92). -/
def parseReg (w : String) : Except ToolchainError Reg :=
  if w = "A" then .ok .A else if w = "B" then .ok .B else .error (.badRegister w)

/-- `mov` with its two operand words (R88). -/
def movToken (x y : String) : Except ToolchainError Token :=
  if x = "A" ∧ y = "B" then .ok .movAB
  else if x = "B" ∧ y = "A" then .ok .movBA
  else do
    let r ← parseReg x
    let im ← parseImm y
    pure (.mov r im)

/-- `add` with its two operand words (R89). -/
def addToken (x y : String) : Except ToolchainError Token := do
  let r ← parseReg x
  let im ← parseImm y
  pure (.add r im)

/-- `out` with its operand word (R89). -/
def outToken (x : String) : Except ToolchainError Token :=
  if x = "B" then .ok .outB else do
    let im ← parseImm x
    pure (.outIm im)

/-- The parser (R85, R87, R90, R93): each mnemonic consumes its operand words whatever they are, and a word in
mnemonic position that is none of the six is skipped, or refused under `strict_mnemonics`. -/
def parse (strict : Bool) : List String → Except ToolchainError (List Token)
  | [] => .ok []
  | w :: rest =>
    match mnemonicOf w, rest with
    | none, words => if strict then .error (.unknownMnemonic w) else parse strict words
    | some .mov, x :: y :: words => do
      let t ← movToken x y
      let ts ← parse strict words
      pure (t :: ts)
    | some .add, x :: y :: words => do
      let t ← addToken x y
      let ts ← parse strict words
      pure (t :: ts)
    | some .jmp, x :: words => do
      let im ← parseImm x
      let ts ← parse strict words
      pure (.jmp im :: ts)
    | some .jnc, x :: words => do
      let im ← parseImm x
      let ts ← parse strict words
      pure (.jnc im :: ts)
    | some .inp, x :: words => do
      let r ← parseReg x
      let ts ← parse strict words
      pure (.inp r :: ts)
    | some .out, x :: words => do
      let t ← outToken x
      let ts ← parse strict words
      pure (t :: ts)
    | some _, _ => .error .missingOperand

/-! ### Assembler -/

/-- The opcode of a token (R95). -/
def tokenOpcode : Token → Nibble
  | .add .A _ => 0b0000
  | .movAB => 0b0001
  | .inp .A => 0b0010
  | .mov .A _ => 0b0011
  | .movBA => 0b0100
  | .add .B _ => 0b0101
  | .inp .B => 0b0110
  | .mov .B _ => 0b0111
  | .outB => 0b1001
  | .outIm _ => 0b1011
  | .jnc _ => 0b1110
  | .jmp _ => 0b1111

/-- The immediate of a token, "0 for opcodes that carry no immediate" (R74, R94). -/
def tokenImmediate : Token → Nibble
  | .mov _ im => im
  | .movAB => 0
  | .movBA => 0
  | .add _ im => im
  | .jmp im => im
  | .jnc im => im
  | .inp _ => 0
  | .outIm im => im
  | .outB => 0

/-- `(op << 4) | (im & 0xF)` (R94). -/
def tokenByte (t : Token) : Byte :=
  ((tokenOpcode t).setWidth 8 <<< 4) ||| ((tokenImmediate t).setWidth 8 &&& 0xF)

/-- `compile`: one byte per token, in input order (R94). It does not check the length (R97). -/
def assemble : List Token → Except ToolchainError (List Byte)
  | [] => .error .emptyProgram
  | t :: ts => .ok ((t :: ts).map tokenByte)

/-- The words of a program to its bytes; "a program either assembles completely or not at all" (R98). -/
def assembleWords (strict : Bool) (words : List String) : Except ToolchainError (List Byte) := do
  let ts ← parse strict words
  assemble ts

/-- The toolchain with its default setting (R7, R90). -/
def assembleDefault (words : List String) : Except ToolchainError (List Byte) :=
  assembleWords Config.strictMnemonics words

/-- The instruction a token stands for (R76, R95). -/
def tokenInstr : Token → Instr
  | .mov .A im => .movAIm im
  | .mov .B im => .movBIm im
  | .movAB => .movAB
  | .movBA => .movBA
  | .add .A im => .addAIm im
  | .add .B im => .addBIm im
  | .jmp im => .jmp im
  | .jnc im => .jnc im
  | .inp .A => .inA
  | .inp .B => .inB
  | .outIm im => .outIm im
  | .outB => .outB

/-! ### Disassembler -/

/-- The token an instruction is spelled as (R95, R99). -/
def instrToken : Instr → Token
  | .addAIm im => .add .A im
  | .movAB => .movAB
  | .inA => .inp .A
  | .movAIm im => .mov .A im
  | .movBA => .movBA
  | .addBIm im => .add .B im
  | .inB => .inp .B
  | .movBIm im => .mov .B im
  | .outB => .outB
  | .outIm im => .outIm im
  | .jnc im => .jnc im
  | .jmp im => .jmp im

/-- A bit as a binary digit. -/
def bitChar (v : Bool) : Char := if v then '1' else '0'

/-- The four binary digits of an immediate (R91, R99). -/
def immWord (im : Nibble) : String :=
  String.ofList [bitChar (im.getLsbD 3), bitChar (im.getLsbD 2), bitChar (im.getLsbD 1), bitChar (im.getLsbD 0)]

/-- The words of an instruction's assembly spelling (R99). -/
def spell : Instr → List String
  | .addAIm im => ["add", "A", immWord im]
  | .movAB => ["mov", "A", "B"]
  | .inA => ["in", "A"]
  | .movAIm im => ["mov", "A", immWord im]
  | .movBA => ["mov", "B", "A"]
  | .addBIm im => ["add", "B", immWord im]
  | .inB => ["in", "B"]
  | .movBIm im => ["mov", "B", immWord im]
  | .outB => ["out", "B"]
  | .outIm im => ["out", immWord im]
  | .jnc im => ["jnc", immWord im]
  | .jmp im => ["jmp", immWord im]

/-- The spelling of a byte; a reserved opcode has none (R99). -/
def disassemble (ir : Byte) : Except DecodeReject (List String) :=
  match decode ir with
  | .ok i => .ok (spell i)
  | .error e => .error e

end Sys2Proof.Machine
end

