-- ==== Sys2Proof/Machine/HostInterface.lean ====
section
/-! DEFINITION. The block's interface and the host's moves (10_state R40, R41; 40_cycle R114; 70_reset R183). -/

namespace Sys2Proof.Machine

/-- Load, input and reset in the host's boot order (R41, R183). An image of more than 16 bytes is refused
(R34, R163, assumption log 6). -/
def launch (image : List Byte) (input : Nibble) : Host.Outcome State Fault Refusal :=
  if imageWellFormed image then .next (State.reset.withLaunch image input).hostReset
  else .refused (.romImageTooLong image.length)

/-- What the host asks of a launched block (R40), one request at a time: the spec's `rst` and `step_req` are two wires
and it gives no priority when both are 1 together, a case the model leaves out (DESIGN CHOICE, assumption log 21). The
ROM and the input never change during a run (R41). -/
inductive HostRequest where
  /-- `rst`. -/
  | rst
  /-- `step_req`, ignored unless `status` is RUNNING. -/
  | stepReq
deriving DecidableEq, Repr

/-- One request of the host (R40). -/
def serve (r : HostRequest) (s : State) : Host.Outcome State Fault Refusal :=
  match r with
  | .rst => .next s.hostReset
  | .stepReq => step s

/-- Does this instruction write the port's output (R24: OUT B and OUT im alone)? -/
def writesPort : Instr → Bool
  | .addAIm _ => false
  | .movAB => false
  | .inA => false
  | .movAIm _ => false
  | .movBA => false
  | .addBIm _ => false
  | .inB => false
  | .movBIm _ => false
  | .outB => true
  | .outIm _ => true
  | .jnc _ => false
  | .jmp _ => false

/-- `out_valid` of the step taken from `s` (R40): 1 for exactly the steps that execute OUT B or OUT im
(assumption log 18). -/
def State.outValid (s : State) : Bool :=
  match s.fetched with
  | .instruction i => writesPort i
  | .idle => false
  | .pastEnd => false
  | .absent => false
  | .undefined _ => false

/-- The block's output signals in a state (R40), `out_valid` apart: it belongs to a step. -/
structure Signals where
  /-- `rom_addr`. -/
  romAddr : Nibble
  /-- `rom_data`, meaningful only when `rom_addr < rom_len`. -/
  romData : Option Byte
  /-- `port_out`. -/
  portOut : Nibble
  /-- `status`; the spec gives its two wires no code (assumption log 19). -/
  status : Status
  /-- `fault_pc`, when `status` is FAULTED. -/
  faultPc : Option Nibble
  /-- `fault_ir`, when `status` is FAULTED. -/
  faultIr : Option Byte
deriving DecidableEq, Repr

/-- `fault_pc` of a fault record. -/
def faultPcOf : Fault → Nibble
  | .decodeError pc _ => pc

/-- `fault_ir` of a fault record. -/
def faultIrOf : Fault → Byte
  | .decodeError _ ir => ir

/-- The output signals (R40). -/
def State.signals (s : State) : Signals where
  romAddr := s.pc
  romData := if s.atEnd then none else s.rom.read s.pc.toNat
  portOut := s.portOutput
  status := s.status
  faultPc := if s.status = .faulted then s.fault.map faultPcOf else none
  faultIr := if s.status = .faulted then s.fault.map faultIrOf else none

/-- What the host observes of a run's end (R114); the fault record is `none` after a success. -/
structure Observation where
  a : Nibble
  b : Nibble
  carry : Bool
  pc : Nibble
  portOutput : Nibble
  outTrace : List Nibble
  fault : Option Fault
deriving DecidableEq, Repr

/-- The observation of a run that has ended (R114); a run that goes on has none yet, and one that never ends is
observed by its trace (`Observes`). -/
def State.observe (s : State) : Option Observation :=
  if s.status = .running then none
  else some ⟨s.a, s.b, s.carry, s.pc, s.portOutput, s.outTrace, s.fault⟩

/-- The host's run under a budget of its own (R41, R113, decision D16): step until `status` is not RUNNING, at most
`budget` times. The core has no budget, and a spent one is not a halt. -/
def runWithin : Nat → State → Host.Outcome State Fault Refusal
  | 0, s => .next s
  | budget + 1, s =>
    match s.status with
    | .halted => .next s
    | .faulted => .next s
    | .running =>
      match step s with
      | .next t => runWithin budget t
      | .fault f => .fault f
      | .refused r => .refused r

/-- The output trace the host has seen after a budget of steps. -/
def traceWithin (budget : Nat) (s : State) : List Nibble :=
  match runWithin budget s with
  | .next t => t.outTrace
  | .fault _ => []
  | .refused _ => []

/-- The run from `s` has no end (R113, R114): it is RUNNING under every budget. -/
def NeverEnds (s : State) : Prop := ∀ budget, ∃ t, runWithin budget s = .next t ∧ t.status = .running

/-- The output trace of an endless run, entry by entry: entry `k` is `v` exactly when some budget shows it. A program
that stops writing has finitely many entries, and `none` from there on (assumption log 22). -/
def IsEndlessTrace (s : State) (trace : Nat → Option Nibble) : Prop :=
  ∀ k v, trace k = some v ↔ ∃ budget, (traceWithin budget s)[k]? = some v

/-- What the host observes of a whole run (R114). It is no part of the state. -/
inductive RunObservation where
  /-- The run ended, HALTED or FAULTED. -/
  | ended (final : Observation)
  /-- The run has no end: its infinite output trace, entry by entry. -/
  | endless (trace : Nat → Option Nibble)

/-- The three observations of a run (R114): HALTED and FAULTED through the final state, no end through the trace. -/
def Observes (s : State) : RunObservation → Prop
  | .ended final => ∃ budget t, runWithin budget s = .next t ∧ t.observe = some final
  | .endless trace => NeverEnds s ∧ IsEndlessTrace s trace

end Sys2Proof.Machine
end

