-- ==== Sys2Proof/Safety.lean ====
section
/-! DEFINITION. What a legal state is and the words the statements use for what a step may change. -/

namespace Sys2Proof.Machine

/-- The ROM holds `rom_len` bytes, at exactly the addresses 0 to `rom_len - 1` in rising order (R32, R56). -/
def State.RomFilled (s : State) : Prop := s.rom.map Prod.fst = List.range s.romLen.val

/-- The fault record agrees with the status (R35, R36, R115): a record exists exactly in FAULTED, and then pc still
holds the address of the recorded byte (R160), which is in the ROM and has a reserved opcode (R77). -/
def State.FaultAgrees (s : State) : Prop :=
  match s.fault with
  | none => s.status ≠ .faulted
  | some (.decodeError pc ir) =>
    s.status = .faulted ∧ pc = s.pc ∧ s.rom.read s.pc.toNat = some ir ∧ (fieldsOf ir).wellFormed = false

/-- The port's output nibble is the last traced value, or its reset value before any OUT (R30, R31, R180). -/
def State.PortAgrees (s : State) : Prop := s.portOutput = s.outTrace.getLastD 0

/-- The invariant of the machine: it holds at reset and at every launch, and every step keeps it. -/
def State.Inv (s : State) : Prop := s.RomFilled ∧ s.FaultAgrees ∧ s.PortAgrees

/-- Every byte of the ROM is a defined instruction (what the assembler produces, R77). -/
def State.RomDefined (s : State) : Prop :=
  ∀ addr ir, s.rom.read addr = some ir → (fieldsOf ir).wellFormed = true

/-- From `s` to `t` the pc advanced by one, and the HALT check ran (R108, R110). The check compares the successor as
a plain number with `rom_len`, so that running past address 15 counts as past the end (R109, decision D4). -/
def State.AdvancedTo (s t : State) : Prop :=
  t.pc.toNat = (s.pc.toNat + 1) % 16 ∧
  t.status = if s.romLen.val ≤ s.pc.toNat + 1 then .halted else s.status

/-- From `s` to `t` the pc took `target`, and the HALT check ran on it (R108, R110). -/
def State.JumpedTo (s t : State) (target : Nibble) : Prop :=
  t.pc = target ∧ t.status = if s.romLen.val ≤ target.toNat then .halted else s.status

/-- The port's output and the trace are unchanged. -/
def State.SamePort (s t : State) : Prop := t.portOutput = s.portOutput ∧ t.outTrace = s.outTrace

/-- The fault record, every byte of the ROM, its length and the input are unchanged (R37, R52, R181). -/
def State.SameLaunchAndFault (s t : State) : Prop :=
  t.fault = s.fault ∧ (∀ addr, t.rom.read addr = s.rom.read addr) ∧ t.romLen = s.romLen ∧
  t.portInput = s.portInput

/-- Is this instruction an ADD (R105)? -/
def isAdd : Instr → Bool
  | .addAIm _ => true
  | .addBIm _ => true
  | .movAB => false
  | .inA => false
  | .movAIm _ => false
  | .movBA => false
  | .inB => false
  | .movBIm _ => false
  | .outB => false
  | .outIm _ => false
  | .jnc _ => false
  | .jmp _ => false

/-- May this instruction write pc itself (R142: JMP and JNC alone)? -/
def isJump : Instr → Bool
  | .jnc _ => true
  | .jmp _ => true
  | .addAIm _ => false
  | .movAB => false
  | .inA => false
  | .movAIm _ => false
  | .movBA => false
  | .addBIm _ => false
  | .inB => false
  | .movBIm _ => false
  | .outB => false
  | .outIm _ => false

end Sys2Proof.Machine
end

