-- ==== Sys2Proof/Certificates/Slice0/Obligations.lean ====
section
/-! DEFINITION. The statements about the model. "Log n" is notes/assumptions/n.md; "the spec's Dn" is a decision of
spec/92_eei_decisions.md, which the spec marks as its own choice. -/

open Sys2Proof Sys2Proof.Machine

/-! ### Decoding and encoding -/

/-- Decoding the byte of an instruction gives the instruction back, with every operand at every value
(R70, R76, R79). -/
def Obligations.DecodeEncodeRoundTrip : Prop := ∀ i : Instr, decode (encode i) = .ok i

/-- A byte decodes to an instruction exactly when its high nibble is the instruction's opcode and, unless the
instruction takes no immediate, its low nibble is the immediate. That the five no-immediate opcodes ignore the low
nibble is the spec's D8 (R74, log 8). -/
def Obligations.DecodeIsTheOpcodeMap : Prop :=
  ∀ (ir : Byte) (i : Instr), decode ir = .ok i ↔
    opField ir = opcodeOf i ∧
    (i ∈ [Instr.movAB, .movBA, .inA, .inB, .outB] ∨ imField ir = immediateOf i)

/-- A byte decodes to no instruction exactly when its opcode is one of the four reserved codes, whatever its low
nibble, and the decoder then names that opcode (R76, R77). -/
def Obligations.ReservedOpcodesRefused : Prop :=
  ∀ ir : Byte,
    ((∀ i, decode ir ≠ .ok i) ↔
      opField ir = 0b1000#4 ∨ opField ir = 0b1010#4 ∨ opField ir = 0b1100#4 ∨ opField ir = 0b1101#4) ∧
    (∀ e, decode ir = .error e → e = .reservedOpcode (opField ir))

/-- One byte of each row of the opcode map, as the spec writes it, decodes to the row's instruction (R76). -/
def Obligations.OpcodeMapSampleBytes : Prop :=
  decode 0b00000011#8 = .ok (.addAIm 3) ∧ decode 0b00010000#8 = .ok .movAB ∧
  decode 0b00100000#8 = .ok .inA ∧ decode 0b00110101#8 = .ok (.movAIm 5) ∧
  decode 0b01000000#8 = .ok .movBA ∧ decode 0b01011111#8 = .ok (.addBIm 15) ∧
  decode 0b01100000#8 = .ok .inB ∧ decode 0b01111111#8 = .ok (.movBIm 15) ∧
  decode 0b10010000#8 = .ok .outB ∧ decode 0b10110011#8 = .ok (.outIm 3) ∧
  decode 0b11100000#8 = .ok (.jnc 0) ∧ decode 0b11110010#8 = .ok (.jmp 2)

/-! ### The step -/

/-- When the byte at the pc, below `rom_len`, decodes to an instruction, a RUNNING engine's step is that
instruction's `exec`, with nothing around it: ADVANCE and the HALT check are in `exec` (R51, R100, R103, log 15). -/
def Obligations.StepRunsDecodedInstruction : Prop :=
  ∀ (s : State) (ir : Byte) (i : Instr), s.status = .running → s.pc.toNat < s.romLen.val →
    s.rom.read s.pc.toNat = some ir → decode ir = .ok i → step s = exec i s

/-- A RUNNING engine whose pc is at or past `rom_len` halts at FETCH with no other change, whatever the ROM lists
there (R51, R101, R166). -/
def Obligations.FetchPastEndHalts : Prop :=
  ∀ s : State, s.status = .running → s.romLen.val ≤ s.pc.toNat → step s = .next { s with status := .halted }

/-- A fetched byte with a reserved opcode, any low nibble, ends the step in FAULTED with the pc and the byte recorded
and nothing else changed (R102, R160). What is recorded and that nothing else changes is the spec's D7 (log 10); that
the step answers a next state is log 4. -/
def Obligations.ReservedOpcodeTakesDecodeError : Prop :=
  ∀ (s : State) (ir : Byte), s.status = .running → s.pc.toNat < s.romLen.val → s.rom.read s.pc.toNat = some ir →
    (opField ir = 0b1000#4 ∨ opField ir = 0b1010#4 ∨ opField ir = 0b1100#4 ∨ opField ir = 0b1101#4) →
    step s = .next { s with status := .faulted, fault := some (.decodeError s.pc ir) }

/-- A step leaves a HALTED or FAULTED state as it is (R35, the spec's D14; that the ignored request answers a next
state is log 3). -/
def Obligations.TerminalStatesStay : Prop := ∀ s : State, s.status ≠ .running → step s = .next s

/-- The host's reset leaves every state, HALTED and FAULTED among them (R35, R168): whatever the state, it answers a
RUNNING one at pc 0 with no fault, and the same ROM, `rom_len` and input (R180, R181). The status and the fault record
are the spec's D17 (log 11). -/
def Obligations.ResetLeavesTerminalStates : Prop :=
  ∀ s : State, ∃ t, serve .rst s = .next t ∧ t.status = .running ∧ t.pc = 0 ∧ t.fault = none ∧
    (∀ addr, t.rom.read addr = s.rom.read addr) ∧ t.romLen = s.romLen ∧ t.portInput = s.portInput

/-- After the host's reset the next step is a fetch from address 0: it runs the ROM's first instruction (R182). -/
def Obligations.ResetRunsFirstInstruction : Prop :=
  ∀ (s : State) (ir : Byte) (i : Instr), 0 < s.romLen.val → s.rom.read 0 = some ir → decode ir = .ok i →
    ∃ t, serve .rst s = .next t ∧ step t = exec i t

/-- The model's one stop: a RUNNING engine below `rom_len` with no byte listed at the pc is refused by name (log 5);
the spec has no such ROM (R32). -/
def Obligations.MissingRomByteRefused : Prop :=
  ∀ s : State, s.status = .running → s.pc.toNat < s.romLen.val → s.rom.read s.pc.toNat = none →
    step s = .refused (.romByteAbsent s.pc)

/-- With a ROM that holds its `rom_len` bytes the model's step is total: it answers a next state in every state. R114
says so of a RUNNING engine. That a terminal state, where the spec has no step (R111), answers a next state is the
model's choice (log 3), and so is that a DecodeError does (log 4). -/
def Obligations.StepTotalOnFilledRom : Prop := ∀ s : State, s.RomFilled → ∃ t, step s = .next t

/-- A word placed with `withFetchWord` is what the very next step runs, in any state (the model's loader, log 17). -/
def Obligations.PlacedWordRunsNext : Prop :=
  ∀ (s : State) (ir : Byte) (i : Instr), decode ir = .ok i →
    decodeTableWord 8 ir.toNat = some i ∧
    step (s.withFetchWord 8 ir.toNat) = exec i (s.withFetchWord 8 ir.toNat)

/-! ### The result of each instruction, for every state: it completes, with its own effect and its frame.
At pc 15 the pc clause of `AdvancedTo` (pc 0, HALTED) is the spec's D4 (R109, log 7). -/

/-- `MOV A,im` (R120). -/
def Obligations.MovAImmediateResult : Prop :=
  ∀ (s : State) (im : Nibble), ∃ t, exec (.movAIm im) s = .next t ∧ t.a = im ∧ t.b = s.b ∧ t.carry = false ∧
    s.AdvancedTo t ∧ s.SamePort t ∧ s.SameLaunchAndFault t

/-- `MOV B,im` (R121). -/
def Obligations.MovBImmediateResult : Prop :=
  ∀ (s : State) (im : Nibble), ∃ t, exec (.movBIm im) s = .next t ∧ t.b = im ∧ t.a = s.a ∧ t.carry = false ∧
    s.AdvancedTo t ∧ s.SamePort t ∧ s.SameLaunchAndFault t

/-- `MOV A,B` copies B into A (R122; the direction is the spec's reading C2, log 13). -/
def Obligations.MovAFromBResult : Prop :=
  ∀ s : State, ∃ t, exec .movAB s = .next t ∧ t.a = s.b ∧ t.b = s.b ∧ t.carry = false ∧
    s.AdvancedTo t ∧ s.SamePort t ∧ s.SameLaunchAndFault t

/-- `MOV B,A` copies A into B (R123; the direction is the spec's reading C2, log 13). -/
def Obligations.MovBFromAResult : Prop :=
  ∀ s : State, ∃ t, exec .movBA s = .next t ∧ t.b = s.a ∧ t.a = s.a ∧ t.carry = false ∧
    s.AdvancedTo t ∧ s.SamePort t ∧ s.SameLaunchAndFault t

/-- `ADD A,im`, opcode 0000: A is the sum modulo 16, the carry is 1 exactly when the sum exceeds 15 whatever it was
before, pc advances by 1, B and the port are unchanged (R130). What happens to a pc of 15 is no part of this one. -/
def Obligations.AddAImmediateResult : Prop :=
  ∀ (s : State) (im : Nibble), decode (0b0000#4 ++ im) = .ok (.addAIm im) ∧
    ∃ t, exec (.addAIm im) s = .next t ∧
      t.a.toNat = (s.a.toNat + im.toNat) % 16 ∧ t.carry = decide (15 < s.a.toNat + im.toNat) ∧
      (s.pc.toNat < 15 → t.pc.toNat = s.pc.toNat + 1) ∧ t.b = s.b ∧ s.SamePort t ∧ s.SameLaunchAndFault t

/-- `ADD B,im`, opcode 0101: as `ADD A,im` with B in place of A (R131). -/
def Obligations.AddBImmediateResult : Prop :=
  ∀ (s : State) (im : Nibble), decode (0b0101#4 ++ im) = .ok (.addBIm im) ∧
    ∃ t, exec (.addBIm im) s = .next t ∧
      t.b.toNat = (s.b.toNat + im.toNat) % 16 ∧ t.carry = decide (15 < s.b.toNat + im.toNat) ∧
      (s.pc.toNat < 15 → t.pc.toNat = s.pc.toNat + 1) ∧ t.a = s.a ∧ s.SamePort t ∧ s.SameLaunchAndFault t

/-- Both ADDs advance the pc and run the HALT check on it, at every pc (R108, R110; pc 15 is the spec's D4, log 7). -/
def Obligations.AddAdvances : Prop :=
  ∀ (s : State) (im : Nibble),
    (∃ t, exec (.addAIm im) s = .next t ∧ s.AdvancedTo t) ∧ (∃ t, exec (.addBIm im) s = .next t ∧ s.AdvancedTo t)

/-- `JMP im`, opcode 1111: pc is the target with no increment, the carry is cleared, a target at or past `rom_len`
halts at once with pc at the target, and A, B and the port are unchanged (R140). -/
def Obligations.JmpResult : Prop :=
  ∀ (s : State) (im : Nibble), decode (0b1111#4 ++ im) = .ok (.jmp im) ∧
    ∃ t, exec (.jmp im) s = .next t ∧ s.JumpedTo t im ∧ t.carry = false ∧ t.a = s.a ∧ t.b = s.b ∧
      s.SamePort t ∧ s.SameLaunchAndFault t

/-- `JNC im`: it jumps exactly when the carry was 0 at the start, else it advances; the carry is 0 afterwards in both
cases (R104, R141). -/
def Obligations.JncResult : Prop :=
  ∀ (s : State) (im : Nibble), ∃ t, exec (.jnc im) s = .next t ∧
    (s.carry = false → s.JumpedTo t im) ∧ (s.carry = true → s.AdvancedTo t) ∧
    t.carry = false ∧ t.a = s.a ∧ t.b = s.b ∧ s.SamePort t ∧ s.SameLaunchAndFault t

/-- `IN A` (R150). -/
def Obligations.InAResult : Prop :=
  ∀ s : State, ∃ t, exec .inA s = .next t ∧ t.a = s.portInput ∧ t.b = s.b ∧ t.carry = false ∧
    s.AdvancedTo t ∧ s.SamePort t ∧ s.SameLaunchAndFault t

/-- `IN B` (R151). -/
def Obligations.InBResult : Prop :=
  ∀ s : State, ∃ t, exec .inB s = .next t ∧ t.b = s.portInput ∧ t.a = s.a ∧ t.carry = false ∧
    s.AdvancedTo t ∧ s.SamePort t ∧ s.SameLaunchAndFault t

/-- `OUT B` writes B to the port's output and appends it to the trace, changed or not (R152; the trace is the spec's
D13, log 11). -/
def Obligations.OutBResult : Prop :=
  ∀ s : State, ∃ t, exec .outB s = .next t ∧ t.portOutput = s.b ∧ t.outTrace = s.outTrace ++ [s.b] ∧
    t.a = s.a ∧ t.b = s.b ∧ t.carry = false ∧ s.AdvancedTo t ∧ s.SameLaunchAndFault t

/-- `OUT im` writes the immediate to the port's output and appends it to the trace (R153; the trace is the spec's
D13, log 11). -/
def Obligations.OutImmediateResult : Prop :=
  ∀ (s : State) (im : Nibble), ∃ t, exec (.outIm im) s = .next t ∧ t.portOutput = im ∧
    t.outTrace = s.outTrace ++ [im] ∧ t.a = s.a ∧ t.b = s.b ∧ t.carry = false ∧ s.AdvancedTo t ∧ s.SameLaunchAndFault t

/-! ### Frames, by shape -/

/-- MOV, ADD and IN change one register, the carry, the pc and the status: the other register, the port, the fault
record, every byte of the ROM, its length and the input are unchanged (R24). -/
def Obligations.RegisterInstructionFrame : Prop :=
  ∀ (i : Instr) (s t : State), exec i s = .next t →
    ((i = .movAB ∨ i = .inA ∨ (∃ im, i = .movAIm im) ∨ (∃ im, i = .addAIm im)) →
      t.b = s.b ∧ s.SamePort t ∧ s.SameLaunchAndFault t) ∧
    ((i = .movBA ∨ i = .inB ∨ (∃ im, i = .movBIm im) ∨ (∃ im, i = .addBIm im)) →
      t.a = s.a ∧ s.SamePort t ∧ s.SameLaunchAndFault t)

/-- OUT changes the port's output and the trace, the carry, the pc and the status: both registers, the fault record,
every byte of the ROM, its length and the input are unchanged (R24). -/
def Obligations.OutputInstructionFrame : Prop :=
  ∀ (i : Instr) (s t : State), (i = .outB ∨ ∃ im, i = .outIm im) → exec i s = .next t →
    t.a = s.a ∧ t.b = s.b ∧ s.SameLaunchAndFault t

/-- JMP and JNC change the carry, the pc and the status: both registers, the port, the fault record, every byte of
the ROM, its length and the input are unchanged (R24). -/
def Obligations.JumpInstructionFrame : Prop :=
  ∀ (i : Instr) (s t : State), (∃ im, i = .jmp im ∨ i = .jnc im) → exec i s = .next t →
    t.a = s.a ∧ t.b = s.b ∧ s.SamePort t ∧ s.SameLaunchAndFault t

/-! ### Carry and control -/

/-- After an executed instruction the carry is the carry-out for ADD and 0 for every other one; a step that halts at
FETCH or faults does not change it (R105). That a DecodeError answers a next state in FAULTED is the model's choice
(log 4), and that it keeps the carry is the spec's D7 (log 10). -/
def Obligations.CarryAfterStep : Prop :=
  (∀ (i : Instr) (s t : State), exec i s = .next t →
    (∀ im, i = .addAIm im → t.carry = decide (15 < s.a.toNat + im.toNat)) ∧
    (∀ im, i = .addBIm im → t.carry = decide (15 < s.b.toNat + im.toNat)) ∧
    (isAdd i = false → t.carry = false)) ∧
  (∀ s : State, s.status = .running → s.romLen.val ≤ s.pc.toNat →
    ∃ t, step s = .next t ∧ t.status = .halted ∧ t.carry = s.carry) ∧
  (∀ (s : State) (ir : Byte), s.status = .running → s.pc.toNat < s.romLen.val → s.rom.read s.pc.toNat = some ir →
    (fieldsOf ir).wellFormed = false → ∃ t, step s = .next t ∧ t.status = .faulted ∧ t.carry = s.carry)

/-- JNC is the only instruction whose effect depends on the carry, and it reads the carry of the start of the step;
so no instruction has a carry-in, and ADD adds the immediate and nothing else (R104, R106). -/
def Obligations.CarryReadByJncAlone : Prop :=
  (∀ (i : Instr) (s : State) (c : Bool), (∀ im, i ≠ .jnc im) → exec i { s with carry := c } = exec i s) ∧
  (∀ (s : State) (im : Nibble), ∃ t, exec (.jnc im) s = .next t ∧
    (s.carry = false → t.pc = im) ∧
    (s.carry = true → s.pc.toNat < 15 → t.pc.toNat = s.pc.toNat + 1)) ∧
  (∀ (s : State) (im : Nibble),
    (∃ t, exec (.addAIm im) s = .next t ∧ t.a.toNat = (s.a.toNat + im.toNat) % 16) ∧
    (∃ t, exec (.addBIm im) s = .next t ∧ t.b.toNat = (s.b.toNat + im.toNat) % 16))

/-- The two orderings inside a step: a taken jump's pc is not followed by the increment, and JNC tests the carry
before it clears it (R186). -/
def Obligations.JumpNotIncremented : Prop :=
  ∀ (s : State) (im : Nibble),
    (∃ t, exec (.jmp im) s = .next t ∧ t.pc = im) ∧
    (∃ t, exec (.jnc im) s = .next t ∧ t.carry = false ∧ (s.carry = false → t.pc = im) ∧
      (s.carry = true → s.pc.toNat < 15 → t.pc.toNat = s.pc.toNat + 1))

/-- No write is late: a JNC right after an ADD A tests the carry that ADD wrote (R185). -/
def Obligations.JncSeesCarryOfAdd : Prop :=
  ∀ (s : State) (im target : Nibble), ∃ t u, exec (.addAIm im) s = .next t ∧ exec (.jnc target) t = .next u ∧
    (s.a.toNat + im.toNat ≤ 15 → t.JumpedTo u target) ∧ (15 < s.a.toNat + im.toNat → t.AdvancedTo u)

/-- A JNC right after any instruction that is not an ADD is taken, since that instruction cleared the carry
(R105, R141). -/
def Obligations.JncAfterNonAddTaken : Prop :=
  ∀ (i : Instr) (s : State) (target : Nibble), isAdd i = false →
    ∃ t u, exec i s = .next t ∧ exec (.jnc target) t = .next u ∧ t.JumpedTo u target

/-- No defined instruction faults or stops: each answers a next state with the fault record unchanged, in which the
status is unchanged or HALTED (R162). -/
def Obligations.NoInstructionFaults : Prop :=
  ∀ (i : Instr) (s : State), ∃ t, exec i s = .next t ∧ t.fault = s.fault ∧
    (t.status = s.status ∨ t.status = .halted)

/-- A RUNNING engine halts only by reaching the end of memory (R112): its pc is at or past `rom_len`; or it executed an
instruction that did not jump (no JMP, and a JNC only with the carry set) and the number after its pc is; or it took a
jump and the target is. -/
def Obligations.HaltsOnlyAtEndOfMemory : Prop :=
  ∀ s t : State, s.status = .running → step s = .next t → t.status = .halted →
    s.romLen.val ≤ s.pc.toNat ∨
    ∃ ir i, s.rom.read s.pc.toNat = some ir ∧ decode ir = .ok i ∧
      ((s.romLen.val ≤ s.pc.toNat + 1 ∧ (∀ im, i ≠ .jmp im) ∧ (∀ im, i = .jnc im → s.carry = true)) ∨
       (s.romLen.val ≤ t.pc.toNat ∧ (i = .jmp t.pc ∨ (i = .jnc t.pc ∧ s.carry = false))))

/-- A step that leaves the engine RUNNING leaves the pc below `rom_len`, from every state (R101, R110, R115). -/
def Obligations.RunningPcStaysInRom : Prop :=
  ∀ s t : State, s.status = .running → step s = .next t → t.status = .running → t.pc.toNat < t.romLen.val

/-- A jump to its own address clears the carry and changes nothing else, so the run from there never ends: under every
budget of at least one step the engine is in the same state, RUNNING, with the carry 0 (R113, R140, R141). -/
def Obligations.SelfJumpNeverEnds : Prop :=
  ∀ (s : State) (ir : Byte), s.status = .running → s.pc.toNat < s.romLen.val → s.rom.read s.pc.toNat = some ir →
    (decode ir = .ok (.jmp s.pc) ∨ (decode ir = .ok (.jnc s.pc) ∧ s.carry = false)) →
    ∀ n : Nat, runWithin (n + 1) s = .next { s with carry := false }

/-- A ROM without JMP and JNC always ends its run: after at most 16 steps from any state the engine is HALTED or
FAULTED (R108, R110, R112; the end at pc 15 is the spec's D4, log 7). -/
def Obligations.StraightLineRunEnds : Prop :=
  ∀ s : State, s.RomFilled →
    (∀ addr ir i, s.rom.read addr = some ir → decode ir = .ok i → isJump i = false) →
    ∃ t, runWithin 16 s = .next t ∧ t.status ≠ .running

/-! ### What is read, and by what -/

/-- Nothing reads the port's output or the trace (R24, R30): from two states that differ only there, OUT goes to states
that differ only in the trace, each with the same new entry appended and the same new output, and every other
instruction keeps the difference as it was. -/
def Obligations.OutputNeverRead : Prop :=
  ∀ (i : Instr) (s : State) (p : Nibble) (tr : List Nibble), ∃ t, exec i s = .next t ∧
    (writesPort i = true → t.outTrace = s.outTrace ++ [t.portOutput] ∧
      exec i { s with portOutput := p, outTrace := tr } = .next { t with outTrace := tr ++ [t.portOutput] }) ∧
    (writesPort i = false →
      exec i { s with portOutput := p, outTrace := tr } = .next { t with portOutput := p, outTrace := tr })

/-- Only IN A and IN B read the port's input (R24). -/
def Obligations.InputReadByInAlone : Prop :=
  ∀ (i : Instr) (s : State) (v : Nibble), i ≠ .inA → i ≠ .inB →
    ∃ t, exec i s = .next t ∧ exec i { s with portInput := v } = .next { t with portInput := v }

/-- Only MOV B,A and ADD A read register A, and only MOV A,B, ADD B and OUT B read register B (R24). From two states
that differ only in A, an instruction that overwrites A (MOV A,im, MOV A,B, IN A) goes to the same state, and any other
but MOV B,A and ADD A to states that differ only in A, each keeping its own; the same for B, which MOV B,im, MOV B,A and
IN B overwrite. -/
def Obligations.RegistersReadWhereNamed : Prop :=
  (∀ (i : Instr) (s : State) (v : Nibble), i ≠ .movBA → (∀ im, i ≠ .addAIm im) →
    (((∃ im, i = .movAIm im) ∨ i = .movAB ∨ i = .inA) → exec i { s with a := v } = exec i s) ∧
    ((∀ im, i ≠ .movAIm im) → i ≠ .movAB → i ≠ .inA →
      ∃ t, exec i s = .next t ∧ exec i { s with a := v } = .next { t with a := v })) ∧
  (∀ (i : Instr) (s : State) (v : Nibble), i ≠ .movAB → i ≠ .outB → (∀ im, i ≠ .addBIm im) →
    (((∃ im, i = .movBIm im) ∨ i = .movBA ∨ i = .inB) → exec i { s with b := v } = exec i s) ∧
    ((∀ im, i ≠ .movBIm im) → i ≠ .movBA → i ≠ .inB →
      ∃ t, exec i s = .next t ∧ exec i { s with b := v } = .next { t with b := v }))

/-- The trace grows by the step's output alone: by one entry, the new port output, when the step executes an OUT, and
by nothing otherwise, when the port's output is unchanged too (R31, R40; the spec's D3 and D13, log 11 and 18). -/
def Obligations.TraceGrowsExactlyByOut : Prop :=
  ∀ s t : State, step s = .next t →
    (s.outValid = true → t.outTrace = s.outTrace ++ [t.portOutput]) ∧
    (s.outValid = false → s.SamePort t)

/-! ### ROM, reset and launch -/

/-- No step writes the ROM: every address reads as before (R52). -/
def Obligations.StepNeverWritesRom : Prop :=
  ∀ s t : State, step s = .next t → ∀ addr, t.rom.read addr = s.rom.read addr

/-- Reset does not change the ROM bytes, `rom_len` and the input, and neither does any step of a run (R181). -/
def Obligations.LaunchStaysFixed : Prop :=
  (∀ s t : State, serve .rst s = .next t →
    (∀ addr, t.rom.read addr = s.rom.read addr) ∧ t.romLen = s.romLen ∧ t.portInput = s.portInput) ∧
  (∀ (n : Nat) (s t : State), runWithin n s = .next t →
    (∀ addr, t.rom.read addr = s.rom.read addr) ∧ t.romLen = s.romLen ∧ t.portInput = s.portInput)

/-- The reset values, at `State.reset` and after the host's reset of any state (R180). The port's output, the trace,
the status and the fault record are the spec's D5, D13 and D17 (log 9 and 11). -/
def Obligations.ResetValues : Prop :=
  ∀ s : State, (s = State.reset ∨ ∃ u, serve .rst u = .next s) →
    s.a = 0 ∧ s.b = 0 ∧ s.carry = false ∧ s.pc = 0 ∧ s.portOutput = 0 ∧ s.outTrace = [] ∧
    s.status = .running ∧ s.fault = none

/-- The invariant holds at reset (R180). -/
def Obligations.ResetSatisfiesInvariant : Prop := State.reset.Inv

/-- Every step keeps the invariant: the ROM holds its `rom_len` bytes, a fault record exists exactly in FAULTED and
names the reserved byte the pc still points at, and the port's output is the last traced value (R31, R32, R36, R115,
R160; the spec's D5, D7 and D13). -/
def Obligations.StepKeepsInvariant : Prop := ∀ s t : State, s.Inv → step s = .next t → t.Inv

/-- The host's reset answers a state with the invariant whenever the ROM holds its bytes (R180, R181). -/
def Obligations.HostResetGivesInvariant : Prop := ∀ s t : State, s.RomFilled → serve .rst s = .next t → t.Inv

/-- An image of at most 16 bytes launches: the state is the reset state (every element at its value of R180, D5, D13
and D17 among them: log 9 and 11) with the image at addresses 0 on, `rom_len` its length, and the input; it has the
invariant (R32, R56, R183). -/
def Obligations.LaunchPlacesImage : Prop :=
  ∀ (image : List Byte) (input : Nibble), image.length ≤ 16 →
    ∃ s, launch image input = .next s ∧ s.Inv ∧
      s.a = 0 ∧ s.b = 0 ∧ s.carry = false ∧ s.pc = 0 ∧ s.portOutput = 0 ∧ s.outTrace = [] ∧
      s.status = .running ∧ s.fault = none ∧
      (∀ addr, s.rom.read addr = image[addr]?) ∧ s.romLen.val = image.length ∧ s.portInput = input

/-- An image of more than 16 bytes is refused at load, with its length (R34, R163; the spec's D9, log 6). -/
def Obligations.OverlongImageRefused : Prop :=
  ∀ (image : List Byte) (input : Nibble), 16 < image.length →
    launch image input = .refused (.romImageTooLong image.length)

/-- A run that has ended stays ended: a larger budget of the host gives the same final state (R41, R114). -/
def Obligations.LargerBudgetSameEnd : Prop :=
  ∀ (n k : Nat) (s t : State), runWithin n s = .next t → t.status ≠ .running → runWithin (n + k) s = .next t

/-- Every run has exactly one observation: the final state's where it ends, and the output trace where it has no end
(R114). A trace that stops growing is an endless run's too (log 22). -/
def Obligations.RunHasOneObservation : Prop := ∀ s : State, s.RomFilled → ∃! o, Observes s o

/-! ### The toolchain -/

/-- The assembler's formula and the encoder agree: each token's byte is the encoding of its instruction, decodes to
it, and splits into the token's opcode and immediate (R79, R94, R95). -/
def Obligations.AssemblerAgreesWithEncoder : Prop :=
  ∀ t : Token, tokenByte t = encode (tokenInstr t) ∧ decode (tokenByte t) = .ok (tokenInstr t) ∧
    opField (tokenByte t) = tokenOpcode t ∧ imField (tokenByte t) = tokenImmediate t

/-- `compile` fails with EmptyProgram on no tokens; otherwise it emits one byte per token in order, each 16 times the
opcode plus the immediate, where the tokens with no immediate have 0; it has no other error (R94). -/
def Obligations.AssembleOneBytePerToken : Prop :=
  assemble [] = .error .emptyProgram ∧
  (∀ ts : List Token, ts ≠ [] → ∃ image, assemble ts = .ok image ∧ image.length = ts.length ∧
    ∀ k, (h : k < ts.length) →
      image[k]?.map BitVec.toNat = some (16 * (tokenOpcode ts[k]).toNat + (tokenImmediate ts[k]).toNat)) ∧
  (∀ t : Token, t ∈ [Token.movAB, .movBA, .inp .A, .inp .B, .outB] → tokenImmediate t = 0)

/-- An assembled program never faults: launched with any input, its run reaches FAULTED under no budget (R77; the
source calls DecodeError "structurally unreachable given a correctly assembled program", C5). -/
def Obligations.AssembledProgramsNeverFault : Prop :=
  ∀ (ts : List Token) (image : List Byte) (input : Nibble) (s t : State) (n : Nat),
    assemble ts = .ok image → launch image input = .next s → runWithin n s = .next t → t.status ≠ .faulted

/-- Where every ROM byte is a defined instruction no step faults, and the ROM stays so (R77, R160). -/
def Obligations.DefinedRomNeverFaults : Prop :=
  ∀ s t : State, s.RomDefined → s.status ≠ .faulted → step s = .next t → t.RomDefined ∧ t.status ≠ .faulted

/-- Printing instructions and parsing the words gives one token for each, in order, which stands for that instruction,
strict or not (R86 to R92, R99). -/
def Obligations.ParsePrintedProgram : Prop :=
  ∀ (strict : Bool) (is : List Instr),
    ∃ ts, parse strict (is.flatMap spell) = .ok ts ∧ ts.map tokenInstr = is

/-- Re-assembling the printed text of a byte gives one byte that executes the same: it decodes to the same instruction
(R99; for a no-immediate opcode with a non-zero low nibble this is the spec's D8). -/
def Obligations.DisassemblyReassembles : Prop :=
  ∀ (strict : Bool) (ir : Byte) (words : List String), disassemble ir = .ok words →
    ∃ out, assembleWords strict words = .ok [out] ∧ decode out = decode ir ∧ opField out = opField ir

/-- A word in mnemonic position that is none of the six mnemonics is skipped by default, wherever it stands between
instructions, and refused under `strict_mnemonics` (R90; the default is the spec's D11). -/
def Obligations.UnknownWordSkipped : Prop :=
  ∀ (w : String) (is : List Instr) (rest : List String), mnemonicOf w = none →
    (parse false (is.flatMap spell ++ w :: rest) = parse false (is.flatMap spell ++ rest)) ∧
    (parse true (is.flatMap spell ++ w :: rest) = .error (.unknownMnemonic w))
end

