-- ==== Sys2Proof/Laws/Memory.lean ====
section
/-! SUPPORT. Reading after placing a byte, and the canonical form, which every memory operation keeps. -/

namespace Sys2Proof.Machine

@[simp] theorem Memory.read_nil (addr : Nat) : Memory.read [] addr = none := rfl

theorem Memory.read_cons (cell : Host.Cell) (m : Memory) (addr : Nat) :
    Memory.read (cell :: m) addr = if cell.1 = addr then some cell.2 else Memory.read m addr := rfl

/-- A byte placed at an address is what a read of it gives. -/
theorem Memory.read_store_same (m : Memory) (addr : Nat) (v : Byte) :
    Memory.read (Memory.store m addr v) addr = some v := by
  induction m with
  | nil => simp [Memory.store, Memory.read_cons]
  | cons cell rest ih =>
    simp only [Memory.store]
    split
    · simp [Memory.read_cons]
    · split
      · simp [Memory.read_cons]
      · rename_i _ hne
        rw [Memory.read_cons, if_neg (fun h => hne h.symm), ih]

/-- Placing a byte leaves every other address alone. -/
theorem Memory.read_store_other (m : Memory) (addr other : Nat) (v : Byte) (h : other ≠ addr) :
    Memory.read (Memory.store m addr v) other = Memory.read m other := by
  induction m with
  | nil => simp [Memory.store, Memory.read_cons, Ne.symm h]
  | cons cell rest ih =>
    simp only [Memory.store]
    split
    · rw [Memory.read_cons, if_neg (Ne.symm h)]
    · split
      · rename_i _ heq
        rw [Memory.read_cons, Memory.read_cons, if_neg (Ne.symm h), if_neg (heq ▸ Ne.symm h)]
      · rw [Memory.read_cons, Memory.read_cons, ih]

/-- The canonical form of a longer memory, in terms of its first address. -/
theorem Memory.wf_cons (cell : Host.Cell) (m : Memory) :
    Memory.wf (cell :: m) = true ↔ (∀ d ∈ m.head?, cell.1 < d.1) ∧ Memory.wf m = true := by
  cases m with
  | nil => simp [Memory.wf]
  | cons d rest => simp [Memory.wf]

theorem Memory.head_store (m : Memory) (addr : Nat) (v : Byte) (d : Host.Cell)
    (h : d ∈ (Memory.store m addr v).head?) : d.1 = addr ∨ d ∈ m.head? := by
  cases m with
  | nil =>
    simp only [Memory.store, List.head?_cons, Option.mem_def, Option.some.injEq] at h
    exact .inl (h ▸ rfl)
  | cons cell rest =>
    simp only [Memory.store] at h
    split at h
    · simp only [List.head?_cons, Option.mem_def, Option.some.injEq] at h
      exact .inl (h ▸ rfl)
    · split at h
      · simp only [List.head?_cons, Option.mem_def, Option.some.injEq] at h
        exact .inl (h ▸ rfl)
      · exact .inr h

/-- Placing a byte keeps the addresses strictly rising. -/
theorem Memory.store_wf (m : Memory) (addr : Nat) (v : Byte) (h : Memory.wf m = true) :
    Memory.wf (Memory.store m addr v) = true := by
  induction m with
  | nil => rfl
  | cons cell rest ih =>
    obtain ⟨hfirst, hrest⟩ := (Memory.wf_cons cell rest).1 h
    simp only [Memory.store]
    split
    · rename_i hlt
      refine (Memory.wf_cons _ _).2 ⟨?_, h⟩
      intro d hd
      simp only [List.head?_cons, Option.mem_def, Option.some.injEq] at hd
      exact hd ▸ hlt
    · split
      · rename_i heq
        exact (Memory.wf_cons _ _).2 ⟨fun d hd => heq ▸ hfirst d hd, hrest⟩
      · refine (Memory.wf_cons _ _).2 ⟨?_, ih hrest⟩
        intro d hd
        rcases Memory.head_store rest addr v d hd with hd | hd
        · omega
        · exact hfirst d hd

/-- Padding keeps the addresses strictly rising. -/
theorem Memory.padBelow_wf (n : Nat) (m : Memory) (h : Memory.wf m = true) :
    Memory.wf (Memory.padBelow n m) = true := by
  induction n with
  | zero => exact h
  | succ n ih =>
    simp only [Memory.padBelow]
    split
    · exact ih
    · exact Memory.store_wf _ _ _ ih

/-- An image lies at rising addresses. -/
theorem cellsFrom_addresses (base : Nat) (image : List Byte) :
    (cellsFrom base image).map Prod.fst = List.range' base image.length := by
  induction image generalizing base with
  | nil => rfl
  | cons v rest ih => simp [cellsFrom, ih, List.range'_succ]

/-- Every address in a memory whose addresses rise from `base` is at least `base`; so a memory laid out at
consecutive addresses is in the canonical form. -/
theorem Memory.wf_of_range (base n : Nat) (m : Memory) (h : m.map Prod.fst = List.range' base n) :
    Memory.wf m = true := by
  induction m generalizing base n with
  | nil => rfl
  | cons cell rest ih =>
    cases n with
    | zero => simp at h
    | succ n =>
      simp only [List.map_cons, List.range'_succ, List.cons.injEq] at h
      refine (Memory.wf_cons _ _).2 ⟨?_, ih _ _ h.2⟩
      intro d hd
      cases rest with
      | nil => simp at hd
      | cons e rest =>
        cases n with
        | zero => simp at h
        | succ n =>
          simp only [List.map_cons, List.range'_succ, List.cons.injEq] at h
          simp only [List.head?_cons, Option.mem_def, Option.some.injEq] at hd
          subst hd
          omega

/-- The image the host loads is in the canonical form. -/
theorem cellsFrom_wf (base : Nat) (image : List Byte) : Memory.wf (cellsFrom base image) = true :=
  Memory.wf_of_range base image.length _ (cellsFrom_addresses base image)

/-- The ROM at reset is in the canonical form. -/
theorem reset_rom_wf : Memory.wf State.reset.rom = true := rfl

/-- What a read of consecutive addresses finds. -/
theorem Memory.read_of_range (base n : Nat) (m : Memory) (h : m.map Prod.fst = List.range' base n) (addr : Nat) :
    (Memory.read m addr).isSome = decide (base ≤ addr ∧ addr < base + n) := by
  induction m generalizing base n with
  | nil =>
    cases n with
    | zero => simp
    | succ n => simp [List.range'_succ] at h
  | cons cell rest ih =>
    cases n with
    | zero => simp at h
    | succ n =>
      simp only [List.map_cons, List.range'_succ, List.cons.injEq] at h
      rw [Memory.read_cons]
      split
      · simp; omega
      · rw [ih _ _ h.2]
        simp only [decide_eq_decide]
        omega

/-! ### Placing a byte in consecutive addresses -/

/-- Replacing a byte leaves the listed addresses as they were. -/
theorem Memory.store_inside (base n : Nat) (m : Memory) (h : m.map Prod.fst = List.range' base n) (addr : Nat)
    (v : Byte) (hlo : base ≤ addr) (hhi : addr < base + n) :
    (Memory.store m addr v).map Prod.fst = List.range' base n := by
  induction m generalizing base n with
  | nil =>
    cases n with
    | zero => omega
    | succ n => simp [List.range'_succ] at h
  | cons cell rest ih =>
    cases n with
    | zero => omega
    | succ n =>
      simp only [List.map_cons, List.range'_succ, List.cons.injEq] at h
      rw [List.range'_succ, Memory.store, if_neg (by omega)]
      split
      · rename_i heq
        rw [List.map_cons, h.2, heq, h.1]
      · rw [List.map_cons, h.1, ih _ _ h.2 (by omega) (by omega)]

/-- A byte placed right after the last listed address extends them by one. -/
theorem Memory.store_after (base n : Nat) (m : Memory) (h : m.map Prod.fst = List.range' base n) (v : Byte) :
    (Memory.store m (base + n) v).map Prod.fst = List.range' base (n + 1) := by
  induction m generalizing base n with
  | nil =>
    cases n with
    | zero => rfl
    | succ n => simp [List.range'_succ] at h
  | cons cell rest ih =>
    cases n with
    | zero => simp at h
    | succ n =>
      simp only [List.map_cons, List.range'_succ, List.cons.injEq] at h
      rw [List.range'_succ, Memory.store, if_neg (by omega), if_neg (by omega), List.map_cons, h.1,
        show base + (n + 1) = base + 1 + n by omega, ih _ _ h.2]

/-- Padding below `n` lists every address below `n`, and no other new one. -/
theorem Memory.padBelow_addresses (n len : Nat) (m : Memory) (h : m.map Prod.fst = List.range' 0 len) :
    (Memory.padBelow n m).map Prod.fst = List.range' 0 (max n len) := by
  induction n with
  | zero => rw [Memory.padBelow, h, Nat.zero_max]
  | succ n ih =>
    have hread := Memory.read_of_range 0 _ _ ih n
    rw [Memory.padBelow]
    split
    · rename_i hsome
      rw [hsome] at hread
      have hlt : n < max n len := by simpa using hread.symm
      rw [ih, show max (n + 1) len = max n len by omega]
    · rename_i hnone
      rw [hnone] at hread
      have hge : ¬ n < max n len := by simpa using hread.symm
      have hmax : max n len = n := by omega
      rw [hmax] at ih
      have hstore := Memory.store_after 0 n _ ih 0
      rw [Nat.zero_add] at hstore
      rw [hstore, show max (n + 1) len = n + 1 by omega]

/-- The ROM with a byte placed at the pc is in the canonical form. -/
theorem State.placeAtPc_wf (s : State) (ir : Byte) (h : Memory.wf s.rom = true) :
    Memory.wf (s.placeAtPc ir).rom = true :=
  Memory.store_wf _ _ _ (Memory.padBelow_wf _ _ h)

/-- The ROM of a launched image is in the canonical form. -/
theorem State.withLaunch_wf (s : State) (image : List Byte) (input : Nibble) :
    Memory.wf (s.withLaunch image input).rom = true :=
  cellsFrom_wf 0 image

end Sys2Proof.Machine
end

