-- ==== Sys2Proof/Laws/State.lean ====
section
/-! SUPPORT. What each update of the state does to each field: one lemma per field per update. -/

namespace Sys2Proof.Machine

/-! ### setCarry -/

@[simp] theorem State.setCarry_a (s : State) (v : Bool) : (s.setCarry v).a = s.a := rfl
@[simp] theorem State.setCarry_b (s : State) (v : Bool) : (s.setCarry v).b = s.b := rfl
@[simp] theorem State.setCarry_carry (s : State) (v : Bool) : (s.setCarry v).carry = v := rfl
@[simp] theorem State.setCarry_pc (s : State) (v : Bool) : (s.setCarry v).pc = s.pc := rfl
@[simp] theorem State.setCarry_portOutput (s : State) (v : Bool) : (s.setCarry v).portOutput = s.portOutput := rfl
@[simp] theorem State.setCarry_outTrace (s : State) (v : Bool) : (s.setCarry v).outTrace = s.outTrace := rfl
@[simp] theorem State.setCarry_status (s : State) (v : Bool) : (s.setCarry v).status = s.status := rfl
@[simp] theorem State.setCarry_fault (s : State) (v : Bool) : (s.setCarry v).fault = s.fault := rfl
@[simp] theorem State.setCarry_rom (s : State) (v : Bool) : (s.setCarry v).rom = s.rom := rfl
@[simp] theorem State.setCarry_romLen (s : State) (v : Bool) : (s.setCarry v).romLen = s.romLen := rfl
@[simp] theorem State.setCarry_portInput (s : State) (v : Bool) : (s.setCarry v).portInput = s.portInput := rfl

/-! ### clearCarry -/

@[simp] theorem State.clearCarry_a (s : State) : s.clearCarry.a = s.a := rfl
@[simp] theorem State.clearCarry_b (s : State) : s.clearCarry.b = s.b := rfl
@[simp] theorem State.clearCarry_carry (s : State) : s.clearCarry.carry = false := rfl
@[simp] theorem State.clearCarry_pc (s : State) : s.clearCarry.pc = s.pc := rfl
@[simp] theorem State.clearCarry_portOutput (s : State) : s.clearCarry.portOutput = s.portOutput := rfl
@[simp] theorem State.clearCarry_outTrace (s : State) : s.clearCarry.outTrace = s.outTrace := rfl
@[simp] theorem State.clearCarry_status (s : State) : s.clearCarry.status = s.status := rfl
@[simp] theorem State.clearCarry_fault (s : State) : s.clearCarry.fault = s.fault := rfl
@[simp] theorem State.clearCarry_rom (s : State) : s.clearCarry.rom = s.rom := rfl
@[simp] theorem State.clearCarry_romLen (s : State) : s.clearCarry.romLen = s.romLen := rfl
@[simp] theorem State.clearCarry_portInput (s : State) : s.clearCarry.portInput = s.portInput := rfl

/-! ### writePort -/

@[simp] theorem State.writePort_a (s : State) (v : Nibble) : (s.writePort v).a = s.a := rfl
@[simp] theorem State.writePort_b (s : State) (v : Nibble) : (s.writePort v).b = s.b := rfl
@[simp] theorem State.writePort_carry (s : State) (v : Nibble) : (s.writePort v).carry = s.carry := rfl
@[simp] theorem State.writePort_pc (s : State) (v : Nibble) : (s.writePort v).pc = s.pc := rfl
@[simp] theorem State.writePort_portOutput (s : State) (v : Nibble) : (s.writePort v).portOutput = v := rfl
@[simp] theorem State.writePort_outTrace (s : State) (v : Nibble) : (s.writePort v).outTrace = s.outTrace ++ [v] := rfl
@[simp] theorem State.writePort_status (s : State) (v : Nibble) : (s.writePort v).status = s.status := rfl
@[simp] theorem State.writePort_fault (s : State) (v : Nibble) : (s.writePort v).fault = s.fault := rfl
@[simp] theorem State.writePort_rom (s : State) (v : Nibble) : (s.writePort v).rom = s.rom := rfl
@[simp] theorem State.writePort_romLen (s : State) (v : Nibble) : (s.writePort v).romLen = s.romLen := rfl
@[simp] theorem State.writePort_portInput (s : State) (v : Nibble) : (s.writePort v).portInput = s.portInput := rfl

/-! ### setPc -/

@[simp] theorem State.setPc_a (s : State) (target : Nibble) : (s.setPc target).a = s.a := rfl
@[simp] theorem State.setPc_b (s : State) (target : Nibble) : (s.setPc target).b = s.b := rfl
@[simp] theorem State.setPc_carry (s : State) (target : Nibble) : (s.setPc target).carry = s.carry := rfl
@[simp] theorem State.setPc_pc (s : State) (target : Nibble) : (s.setPc target).pc = target := rfl
@[simp] theorem State.setPc_portOutput (s : State) (target : Nibble) : (s.setPc target).portOutput = s.portOutput := rfl
@[simp] theorem State.setPc_outTrace (s : State) (target : Nibble) : (s.setPc target).outTrace = s.outTrace := rfl
@[simp] theorem State.setPc_status (s : State) (target : Nibble) : (s.setPc target).status = s.status := rfl
@[simp] theorem State.setPc_fault (s : State) (target : Nibble) : (s.setPc target).fault = s.fault := rfl
@[simp] theorem State.setPc_rom (s : State) (target : Nibble) : (s.setPc target).rom = s.rom := rfl
@[simp] theorem State.setPc_romLen (s : State) (target : Nibble) : (s.setPc target).romLen = s.romLen := rfl
@[simp] theorem State.setPc_portInput (s : State) (target : Nibble) : (s.setPc target).portInput = s.portInput := rfl

/-! ### setStatus -/

@[simp] theorem State.setStatus_a (s : State) (v : Status) : (s.setStatus v).a = s.a := rfl
@[simp] theorem State.setStatus_b (s : State) (v : Status) : (s.setStatus v).b = s.b := rfl
@[simp] theorem State.setStatus_carry (s : State) (v : Status) : (s.setStatus v).carry = s.carry := rfl
@[simp] theorem State.setStatus_pc (s : State) (v : Status) : (s.setStatus v).pc = s.pc := rfl
@[simp] theorem State.setStatus_portOutput (s : State) (v : Status) : (s.setStatus v).portOutput = s.portOutput := rfl
@[simp] theorem State.setStatus_outTrace (s : State) (v : Status) : (s.setStatus v).outTrace = s.outTrace := rfl
@[simp] theorem State.setStatus_status (s : State) (v : Status) : (s.setStatus v).status = v := rfl
@[simp] theorem State.setStatus_fault (s : State) (v : Status) : (s.setStatus v).fault = s.fault := rfl
@[simp] theorem State.setStatus_rom (s : State) (v : Status) : (s.setStatus v).rom = s.rom := rfl
@[simp] theorem State.setStatus_romLen (s : State) (v : Status) : (s.setStatus v).romLen = s.romLen := rfl
@[simp] theorem State.setStatus_portInput (s : State) (v : Status) : (s.setStatus v).portInput = s.portInput := rfl

/-! ### raiseDecodeError -/

@[simp] theorem State.raiseDecodeError_a (s : State) (ir : Byte) : (s.raiseDecodeError ir).a = s.a := rfl
@[simp] theorem State.raiseDecodeError_b (s : State) (ir : Byte) : (s.raiseDecodeError ir).b = s.b := rfl
@[simp] theorem State.raiseDecodeError_carry (s : State) (ir : Byte) : (s.raiseDecodeError ir).carry = s.carry := rfl
@[simp] theorem State.raiseDecodeError_pc (s : State) (ir : Byte) : (s.raiseDecodeError ir).pc = s.pc := rfl
@[simp] theorem State.raiseDecodeError_portOutput (s : State) (ir : Byte) : (s.raiseDecodeError ir).portOutput = s.portOutput := rfl
@[simp] theorem State.raiseDecodeError_outTrace (s : State) (ir : Byte) : (s.raiseDecodeError ir).outTrace = s.outTrace := rfl
@[simp] theorem State.raiseDecodeError_status (s : State) (ir : Byte) : (s.raiseDecodeError ir).status = .faulted := rfl
@[simp] theorem State.raiseDecodeError_fault (s : State) (ir : Byte) : (s.raiseDecodeError ir).fault = some (.decodeError s.pc ir) := rfl
@[simp] theorem State.raiseDecodeError_rom (s : State) (ir : Byte) : (s.raiseDecodeError ir).rom = s.rom := rfl
@[simp] theorem State.raiseDecodeError_romLen (s : State) (ir : Byte) : (s.raiseDecodeError ir).romLen = s.romLen := rfl
@[simp] theorem State.raiseDecodeError_portInput (s : State) (ir : Byte) : (s.raiseDecodeError ir).portInput = s.portInput := rfl

/-! ### hostReset -/

@[simp] theorem State.hostReset_a (s : State) : s.hostReset.a = 0 := rfl
@[simp] theorem State.hostReset_b (s : State) : s.hostReset.b = 0 := rfl
@[simp] theorem State.hostReset_carry (s : State) : s.hostReset.carry = false := rfl
@[simp] theorem State.hostReset_pc (s : State) : s.hostReset.pc = 0 := rfl
@[simp] theorem State.hostReset_portOutput (s : State) : s.hostReset.portOutput = 0 := rfl
@[simp] theorem State.hostReset_outTrace (s : State) : s.hostReset.outTrace = [] := rfl
@[simp] theorem State.hostReset_status (s : State) : s.hostReset.status = .running := rfl
@[simp] theorem State.hostReset_fault (s : State) : s.hostReset.fault = none := rfl
@[simp] theorem State.hostReset_rom (s : State) : s.hostReset.rom = s.rom := rfl
@[simp] theorem State.hostReset_romLen (s : State) : s.hostReset.romLen = s.romLen := rfl
@[simp] theorem State.hostReset_portInput (s : State) : s.hostReset.portInput = s.portInput := rfl

/-! ### withLaunch -/

@[simp] theorem State.withLaunch_a (s : State) (image : List Byte) (input : Nibble) : (s.withLaunch image input).a = s.a := rfl
@[simp] theorem State.withLaunch_b (s : State) (image : List Byte) (input : Nibble) : (s.withLaunch image input).b = s.b := rfl
@[simp] theorem State.withLaunch_carry (s : State) (image : List Byte) (input : Nibble) : (s.withLaunch image input).carry = s.carry := rfl
@[simp] theorem State.withLaunch_pc (s : State) (image : List Byte) (input : Nibble) : (s.withLaunch image input).pc = s.pc := rfl
@[simp] theorem State.withLaunch_portOutput (s : State) (image : List Byte) (input : Nibble) : (s.withLaunch image input).portOutput = s.portOutput := rfl
@[simp] theorem State.withLaunch_outTrace (s : State) (image : List Byte) (input : Nibble) : (s.withLaunch image input).outTrace = s.outTrace := rfl
@[simp] theorem State.withLaunch_status (s : State) (image : List Byte) (input : Nibble) : (s.withLaunch image input).status = s.status := rfl
@[simp] theorem State.withLaunch_fault (s : State) (image : List Byte) (input : Nibble) : (s.withLaunch image input).fault = s.fault := rfl
@[simp] theorem State.withLaunch_rom (s : State) (image : List Byte) (input : Nibble) : (s.withLaunch image input).rom = cellsFrom 0 image := rfl
@[simp] theorem State.withLaunch_romLen (s : State) (image : List Byte) (input : Nibble) : (s.withLaunch image input).romLen = Fin.ofNat 17 image.length := rfl
@[simp] theorem State.withLaunch_portInput (s : State) (image : List Byte) (input : Nibble) : (s.withLaunch image input).portInput = input := rfl

/-! ### placeAtPc -/

@[simp] theorem State.placeAtPc_a (s : State) (ir : Byte) : (s.placeAtPc ir).a = s.a := rfl
@[simp] theorem State.placeAtPc_b (s : State) (ir : Byte) : (s.placeAtPc ir).b = s.b := rfl
@[simp] theorem State.placeAtPc_carry (s : State) (ir : Byte) : (s.placeAtPc ir).carry = s.carry := rfl
@[simp] theorem State.placeAtPc_pc (s : State) (ir : Byte) : (s.placeAtPc ir).pc = s.pc := rfl
@[simp] theorem State.placeAtPc_portOutput (s : State) (ir : Byte) : (s.placeAtPc ir).portOutput = s.portOutput := rfl
@[simp] theorem State.placeAtPc_outTrace (s : State) (ir : Byte) : (s.placeAtPc ir).outTrace = s.outTrace := rfl
@[simp] theorem State.placeAtPc_status (s : State) (ir : Byte) : (s.placeAtPc ir).status = .running := rfl
@[simp] theorem State.placeAtPc_fault (s : State) (ir : Byte) : (s.placeAtPc ir).fault = s.fault := rfl
@[simp] theorem State.placeAtPc_rom (s : State) (ir : Byte) : (s.placeAtPc ir).rom = Memory.store (Memory.padBelow s.pc.toNat s.rom) s.pc.toNat ir := rfl
@[simp] theorem State.placeAtPc_romLen (s : State) (ir : Byte) : (s.placeAtPc ir).romLen = if s.atEnd then Fin.ofNat 17 (s.pc.toNat + 1) else s.romLen := rfl
@[simp] theorem State.placeAtPc_portInput (s : State) (ir : Byte) : (s.placeAtPc ir).portInput = s.portInput := rfl

/-! ### writeReg -/

@[simp] theorem State.writeReg_A_a (s : State) (v : Nibble) : (s.writeReg .A v).a = v := rfl
@[simp] theorem State.writeReg_A_b (s : State) (v : Nibble) : (s.writeReg .A v).b = s.b := rfl
@[simp] theorem State.writeReg_B_a (s : State) (v : Nibble) : (s.writeReg .B v).a = s.a := rfl
@[simp] theorem State.writeReg_B_b (s : State) (v : Nibble) : (s.writeReg .B v).b = v := rfl
@[simp] theorem State.writeReg_carry (s : State) (r : Reg) (v : Nibble) : (s.writeReg r v).carry = s.carry := by
  cases r <;> rfl
@[simp] theorem State.writeReg_pc (s : State) (r : Reg) (v : Nibble) : (s.writeReg r v).pc = s.pc := by
  cases r <;> rfl
@[simp] theorem State.writeReg_portOutput (s : State) (r : Reg) (v : Nibble) : (s.writeReg r v).portOutput = s.portOutput := by
  cases r <;> rfl
@[simp] theorem State.writeReg_outTrace (s : State) (r : Reg) (v : Nibble) : (s.writeReg r v).outTrace = s.outTrace := by
  cases r <;> rfl
@[simp] theorem State.writeReg_status (s : State) (r : Reg) (v : Nibble) : (s.writeReg r v).status = s.status := by
  cases r <;> rfl
@[simp] theorem State.writeReg_fault (s : State) (r : Reg) (v : Nibble) : (s.writeReg r v).fault = s.fault := by
  cases r <;> rfl
@[simp] theorem State.writeReg_rom (s : State) (r : Reg) (v : Nibble) : (s.writeReg r v).rom = s.rom := by
  cases r <;> rfl
@[simp] theorem State.writeReg_romLen (s : State) (r : Reg) (v : Nibble) : (s.writeReg r v).romLen = s.romLen := by
  cases r <;> rfl
@[simp] theorem State.writeReg_portInput (s : State) (r : Reg) (v : Nibble) : (s.writeReg r v).portInput = s.portInput := by
  cases r <;> rfl

@[simp] theorem State.readReg_A (s : State) : s.readReg .A = s.a := rfl
@[simp] theorem State.readReg_B (s : State) : s.readReg .B = s.b := rfl

end Sys2Proof.Machine
end

