-- ==== Sys2Proof/Laws/Ops.lean ====
section
/-! SUPPORT. What each shared operation of the engine can do, said once: the meanings are single calls of these. -/

namespace Sys2Proof.Machine

/-! ### The HALT check, ADVANCE and the taken jump -/

@[simp] theorem State.haltCheck_a (s : State) (ovf : Bool) : (s.haltCheck ovf).a = s.a := by
  unfold State.haltCheck; split <;> rfl
@[simp] theorem State.haltCheck_b (s : State) (ovf : Bool) : (s.haltCheck ovf).b = s.b := by
  unfold State.haltCheck; split <;> rfl
@[simp] theorem State.haltCheck_carry (s : State) (ovf : Bool) : (s.haltCheck ovf).carry = s.carry := by
  unfold State.haltCheck; split <;> rfl
@[simp] theorem State.haltCheck_pc (s : State) (ovf : Bool) : (s.haltCheck ovf).pc = s.pc := by
  unfold State.haltCheck; split <;> rfl
@[simp] theorem State.haltCheck_portOutput (s : State) (ovf : Bool) : (s.haltCheck ovf).portOutput = s.portOutput := by
  unfold State.haltCheck; split <;> rfl
@[simp] theorem State.haltCheck_outTrace (s : State) (ovf : Bool) : (s.haltCheck ovf).outTrace = s.outTrace := by
  unfold State.haltCheck; split <;> rfl
@[simp] theorem State.haltCheck_fault (s : State) (ovf : Bool) : (s.haltCheck ovf).fault = s.fault := by
  unfold State.haltCheck; split <;> rfl
@[simp] theorem State.haltCheck_rom (s : State) (ovf : Bool) : (s.haltCheck ovf).rom = s.rom := by
  unfold State.haltCheck; split <;> rfl
@[simp] theorem State.haltCheck_romLen (s : State) (ovf : Bool) : (s.haltCheck ovf).romLen = s.romLen := by
  unfold State.haltCheck; split <;> rfl
@[simp] theorem State.haltCheck_portInput (s : State) (ovf : Bool) : (s.haltCheck ovf).portInput = s.portInput := by
  unfold State.haltCheck; split <;> rfl

theorem State.atEnd_iff (s : State) : s.atEnd = true ↔ s.romLen.val ≤ s.pc.toNat := by
  simp [State.atEnd]

theorem State.haltCheck_status (s : State) (ovf : Bool) :
    (s.haltCheck ovf).status = if ovf = true ∨ s.romLen.val ≤ s.pc.toNat then .halted else s.status := by
  simp only [State.haltCheck, Bool.or_eq_true, State.atEnd_iff]
  split <;> rfl

/-- The low four bits of the successor are the pc plus one, modulo 16 (R109). -/
theorem pcSuccessor_low (pc : Nibble) : ((pcSuccessor pc).extractLsb' 0 4).toNat = (pc.toNat + 1) % 16 := by
  revert pc; decide

/-- The fifth bit of the successor says that the pc was 15 (R109). -/
theorem pcSuccessor_ovf (pc : Nibble) : (pcSuccessor pc).getLsbD 4 = decide (pc.toNat = 15) := by
  revert pc; decide

@[simp] theorem State.advance_a (s : State) : s.advance.a = s.a := by
  simp [State.advance]
@[simp] theorem State.advance_b (s : State) : s.advance.b = s.b := by
  simp [State.advance]
@[simp] theorem State.advance_carry (s : State) : s.advance.carry = s.carry := by
  simp [State.advance]
@[simp] theorem State.advance_portOutput (s : State) : s.advance.portOutput = s.portOutput := by
  simp [State.advance]
@[simp] theorem State.advance_outTrace (s : State) : s.advance.outTrace = s.outTrace := by
  simp [State.advance]
@[simp] theorem State.advance_fault (s : State) : s.advance.fault = s.fault := by
  simp [State.advance]
@[simp] theorem State.advance_rom (s : State) : s.advance.rom = s.rom := by
  simp [State.advance]
@[simp] theorem State.advance_romLen (s : State) : s.advance.romLen = s.romLen := by
  simp [State.advance]
@[simp] theorem State.advance_portInput (s : State) : s.advance.portInput = s.portInput := by
  simp [State.advance]

theorem State.advance_pc (s : State) : s.advance.pc.toNat = (s.pc.toNat + 1) % 16 := by
  rw [State.advance, State.haltCheck_pc, State.setPc_pc, pcSuccessor_low]

theorem State.advance_status (s : State) :
    s.advance.status = if s.romLen.val ≤ s.pc.toNat + 1 then .halted else s.status := by
  have hpc : s.pc.toNat < 16 := s.pc.isLt
  have hlen : s.romLen.val < 17 := s.romLen.isLt
  rw [State.advance, State.haltCheck_status, State.setPc_pc, pcSuccessor_low, pcSuccessor_ovf]
  simp only [State.setPc_romLen, State.setPc_status, decide_eq_true_eq]
  refine if_congr ?_ rfl rfl
  omega

@[simp] theorem State.jumpTo_a (s : State) (target : Nibble) : (s.jumpTo target).a = s.a := by
  simp [State.jumpTo]
@[simp] theorem State.jumpTo_b (s : State) (target : Nibble) : (s.jumpTo target).b = s.b := by
  simp [State.jumpTo]
@[simp] theorem State.jumpTo_carry (s : State) (target : Nibble) : (s.jumpTo target).carry = s.carry := by
  simp [State.jumpTo]
@[simp] theorem State.jumpTo_portOutput (s : State) (target : Nibble) : (s.jumpTo target).portOutput = s.portOutput := by
  simp [State.jumpTo]
@[simp] theorem State.jumpTo_outTrace (s : State) (target : Nibble) : (s.jumpTo target).outTrace = s.outTrace := by
  simp [State.jumpTo]
@[simp] theorem State.jumpTo_fault (s : State) (target : Nibble) : (s.jumpTo target).fault = s.fault := by
  simp [State.jumpTo]
@[simp] theorem State.jumpTo_rom (s : State) (target : Nibble) : (s.jumpTo target).rom = s.rom := by
  simp [State.jumpTo]
@[simp] theorem State.jumpTo_romLen (s : State) (target : Nibble) : (s.jumpTo target).romLen = s.romLen := by
  simp [State.jumpTo]
@[simp] theorem State.jumpTo_portInput (s : State) (target : Nibble) : (s.jumpTo target).portInput = s.portInput := by
  simp [State.jumpTo]
@[simp] theorem State.jumpTo_pc (s : State) (target : Nibble) : (s.jumpTo target).pc = target := by
  simp [State.jumpTo]

theorem State.jumpTo_status (s : State) (target : Nibble) :
    (s.jumpTo target).status = if s.romLen.val ≤ target.toNat then .halted else s.status := by
  simp [State.jumpTo, State.haltCheck_status]

/-- The status after a cleared carry and an advance, as JNC makes it when not taken. -/
theorem State.clearCarry_advance_status (s : State) :
    s.clearCarry.advance.status = if s.romLen.val ≤ s.pc.toNat + 1 then .halted else s.status :=
  s.clearCarry.advance_status

/-- The status after a cleared carry and a taken jump, as JMP and JNC make it. -/
theorem State.clearCarry_jumpTo_status (s : State) (target : Nibble) :
    (s.clearCarry.jumpTo target).status = if s.romLen.val ≤ target.toNat then .halted else s.status :=
  s.clearCarry.jumpTo_status target

/-! ### The adder -/

/-- The stored sum is the sum modulo 16 (R132). -/
theorem sumResult_toNat (x y : Nibble) : (sumResult x y).toNat = (x.toNat + y.toNat) % 16 := by
  revert x y; decide

/-- The carry-out says that the sum exceeds 15 (R132). -/
theorem sumCarry_eq (x y : Nibble) : sumCarry x y = decide (15 < x.toNat + y.toNat) := by
  revert x y; decide

/-! ### Operands, transfers, sums and output -/

@[simp] theorem Operand.value_imm (s : State) (v : Nibble) : (Operand.imm v).value s = v := rfl
@[simp] theorem Operand.value_reg (s : State) (r : Reg) : (Operand.reg r).value s = s.readReg r := rfl
@[simp] theorem Operand.value_portInput (s : State) : Operand.portInput.value s = s.portInput := rfl

@[simp] theorem State.moveInto_A_a (s : State) (src : Operand) : (s.moveInto .A src).a = src.value s := by
  simp [State.moveInto]
@[simp] theorem State.moveInto_A_b (s : State) (src : Operand) : (s.moveInto .A src).b = s.b := by
  simp [State.moveInto]
@[simp] theorem State.moveInto_B_b (s : State) (src : Operand) : (s.moveInto .B src).b = src.value s := by
  simp [State.moveInto]
@[simp] theorem State.moveInto_B_a (s : State) (src : Operand) : (s.moveInto .B src).a = s.a := by
  simp [State.moveInto]
@[simp] theorem State.moveInto_carry (s : State) (r : Reg) (src : Operand) : (s.moveInto r src).carry = false := by
  simp [State.moveInto]
@[simp] theorem State.moveInto_portOutput (s : State) (r : Reg) (src : Operand) : (s.moveInto r src).portOutput = s.portOutput := by
  simp [State.moveInto]
@[simp] theorem State.moveInto_outTrace (s : State) (r : Reg) (src : Operand) : (s.moveInto r src).outTrace = s.outTrace := by
  simp [State.moveInto]
@[simp] theorem State.moveInto_fault (s : State) (r : Reg) (src : Operand) : (s.moveInto r src).fault = s.fault := by
  simp [State.moveInto]
@[simp] theorem State.moveInto_rom (s : State) (r : Reg) (src : Operand) : (s.moveInto r src).rom = s.rom := by
  simp [State.moveInto]
@[simp] theorem State.moveInto_romLen (s : State) (r : Reg) (src : Operand) : (s.moveInto r src).romLen = s.romLen := by
  simp [State.moveInto]
@[simp] theorem State.moveInto_portInput (s : State) (r : Reg) (src : Operand) : (s.moveInto r src).portInput = s.portInput := by
  simp [State.moveInto]

theorem State.moveInto_pc (s : State) (r : Reg) (src : Operand) : (s.moveInto r src).pc.toNat = (s.pc.toNat + 1) % 16 := by
  simp [State.moveInto, State.advance_pc]

theorem State.moveInto_status (s : State) (r : Reg) (src : Operand) :
    (s.moveInto r src).status = if s.romLen.val ≤ s.pc.toNat + 1 then .halted else s.status := by
  rw [State.moveInto, State.advance_status]
  cases r <;> rfl

@[simp] theorem State.addInto_A_a (s : State) (im : Nibble) : (s.addInto .A im).a = sumResult s.a im := by
  simp [State.addInto]
@[simp] theorem State.addInto_A_b (s : State) (im : Nibble) : (s.addInto .A im).b = s.b := by
  simp [State.addInto]
@[simp] theorem State.addInto_B_b (s : State) (im : Nibble) : (s.addInto .B im).b = sumResult s.b im := by
  simp [State.addInto]
@[simp] theorem State.addInto_B_a (s : State) (im : Nibble) : (s.addInto .B im).a = s.a := by
  simp [State.addInto]
@[simp] theorem State.addInto_carry (s : State) (r : Reg) (im : Nibble) : (s.addInto r im).carry = sumCarry (s.readReg r) im := by
  simp [State.addInto]
@[simp] theorem State.addInto_portOutput (s : State) (r : Reg) (im : Nibble) : (s.addInto r im).portOutput = s.portOutput := by
  simp [State.addInto]
@[simp] theorem State.addInto_outTrace (s : State) (r : Reg) (im : Nibble) : (s.addInto r im).outTrace = s.outTrace := by
  simp [State.addInto]
@[simp] theorem State.addInto_fault (s : State) (r : Reg) (im : Nibble) : (s.addInto r im).fault = s.fault := by
  simp [State.addInto]
@[simp] theorem State.addInto_rom (s : State) (r : Reg) (im : Nibble) : (s.addInto r im).rom = s.rom := by
  simp [State.addInto]
@[simp] theorem State.addInto_romLen (s : State) (r : Reg) (im : Nibble) : (s.addInto r im).romLen = s.romLen := by
  simp [State.addInto]
@[simp] theorem State.addInto_portInput (s : State) (r : Reg) (im : Nibble) : (s.addInto r im).portInput = s.portInput := by
  simp [State.addInto]

theorem State.addInto_pc (s : State) (r : Reg) (im : Nibble) : (s.addInto r im).pc.toNat = (s.pc.toNat + 1) % 16 := by
  simp [State.addInto, State.advance_pc]

theorem State.addInto_status (s : State) (r : Reg) (im : Nibble) :
    (s.addInto r im).status = if s.romLen.val ≤ s.pc.toNat + 1 then .halted else s.status := by
  rw [State.addInto, State.advance_status]
  cases r <;> rfl

@[simp] theorem State.outputFrom_carry (s : State) (src : Operand) : (s.outputFrom src).carry = false := by
  simp [State.outputFrom]
@[simp] theorem State.outputFrom_portOutput (s : State) (src : Operand) :
    (s.outputFrom src).portOutput = src.value s := by
  simp [State.outputFrom]
@[simp] theorem State.outputFrom_outTrace (s : State) (src : Operand) :
    (s.outputFrom src).outTrace = s.outTrace ++ [src.value s] := by
  simp [State.outputFrom]
@[simp] theorem State.outputFrom_a (s : State) (src : Operand) : (s.outputFrom src).a = s.a := by
  simp [State.outputFrom]
@[simp] theorem State.outputFrom_b (s : State) (src : Operand) : (s.outputFrom src).b = s.b := by
  simp [State.outputFrom]
@[simp] theorem State.outputFrom_fault (s : State) (src : Operand) : (s.outputFrom src).fault = s.fault := by
  simp [State.outputFrom]
@[simp] theorem State.outputFrom_rom (s : State) (src : Operand) : (s.outputFrom src).rom = s.rom := by
  simp [State.outputFrom]
@[simp] theorem State.outputFrom_romLen (s : State) (src : Operand) : (s.outputFrom src).romLen = s.romLen := by
  simp [State.outputFrom]
@[simp] theorem State.outputFrom_portInput (s : State) (src : Operand) : (s.outputFrom src).portInput = s.portInput := by
  simp [State.outputFrom]

theorem State.outputFrom_pc (s : State) (src : Operand) :
    (s.outputFrom src).pc.toNat = (s.pc.toNat + 1) % 16 := by
  simp [State.outputFrom, State.advance_pc]

theorem State.outputFrom_status (s : State) (src : Operand) :
    (s.outputFrom src).status = if s.romLen.val ≤ s.pc.toNat + 1 then .halted else s.status := by
  rw [State.outputFrom, State.advance_status]
  rfl

end Sys2Proof.Machine
end

