-- ==== Sys2Proof/Laws/PerInstr.lean ====
section
/-! SUPPORT. A statement per instruction as syntax: its byte splits into a defined opcode and its own immediate
(30_encoding R70, R76, R77). -/

namespace Sys2Proof.Laws.EncodesDefined

/-- The byte of an instruction splits into that instruction's opcode and immediate, and the opcode is defined. -/
def Statement (i : Instr) : Prop :=
  fieldsOf (encode i) = ⟨opcodeOf i, immediateOf i⟩ ∧ (fieldsOf (encode i)).wellFormed = true

/-- Splitting a byte made of two nibbles gives the nibbles. -/
theorem fieldsOf_append (op im : Nibble) : fieldsOf (op ++ im) = ⟨op, im⟩ := by
  revert op im; decide

/-- A defined opcode gives the statement. -/
theorem of_defined (i : Instr) (h : (Fields.mk (opcodeOf i) (immediateOf i)).wellFormed = true) : Statement i := by
  rw [Statement, encode, fieldsOf_append]
  exact ⟨rfl, h⟩

theorem addAIm (im : Nibble) : Statement (.addAIm im) := of_defined _ rfl
theorem movAB : Statement .movAB := of_defined _ rfl
theorem inA : Statement .inA := of_defined _ rfl
theorem movAIm (im : Nibble) : Statement (.movAIm im) := of_defined _ rfl
theorem movBA : Statement .movBA := of_defined _ rfl
theorem addBIm (im : Nibble) : Statement (.addBIm im) := of_defined _ rfl
theorem inB : Statement .inB := of_defined _ rfl
theorem movBIm (im : Nibble) : Statement (.movBIm im) := of_defined _ rfl
theorem outB : Statement .outB := of_defined _ rfl
theorem outIm (im : Nibble) : Statement (.outIm im) := of_defined _ rfl
theorem jnc (im : Nibble) : Statement (.jnc im) := of_defined _ rfl
theorem jmp (im : Nibble) : Statement (.jmp im) := of_defined _ rfl

end Sys2Proof.Laws.EncodesDefined
end

