-- ==== Sys2Proof/Laws/Run.lean ====
section
/-! SUPPORT. Runs under a budget: an ended run stays, a RUNNING one takes a step, and what every step keeps a run keeps. -/

namespace Sys2Proof.Machine

@[simp] theorem runWithin_zero (s : State) : runWithin 0 s = .next s := rfl

/-- A state that is not RUNNING is its own end, under any budget. -/
theorem runWithin_ended (budget : Nat) (s : State) (h : s.status ≠ .running) : runWithin budget s = .next s := by
  cases budget with
  | zero => rfl
  | succ n =>
    rw [runWithin]
    split
    · rfl
    · rfl
    · rename_i hrun
      exact absurd hrun h

/-- A RUNNING state takes one step of the budget. -/
theorem runWithin_step (budget : Nat) (s t : State) (hrun : s.status = .running) (h : step s = .next t) :
    runWithin (budget + 1) s = runWithin budget t := by
  rw [runWithin, hrun]
  simp only [h]

/-- What holds at the start and is kept by every step holds after a run. -/
theorem runWithin_keeps (P : State → Prop) (hstep : ∀ s t, P s → step s = .next t → P t) (budget : Nat)
    (s t : State) (hs : P s) (h : runWithin budget s = .next t) : P t := by
  induction budget generalizing s with
  | zero => exact Host.Outcome.next.inj h ▸ hs
  | succ n ih =>
    by_cases hrun : s.status = .running
    · cases hu : step s with
      | next u =>
        rw [runWithin_step n s u hrun hu] at h
        exact ih u (hstep s u hs hu) h
      | fault f => simp [runWithin, hrun, hu] at h
      | refused r => simp [runWithin, hrun, hu] at h
    · rw [runWithin_ended _ s hrun] at h
      exact Host.Outcome.next.inj h ▸ hs

/-- The trace under a budget is that of the state the budget reaches. -/
theorem traceWithin_of_run (budget : Nat) (s t : State) (h : runWithin budget s = .next t) :
    traceWithin budget s = t.outTrace := by
  rw [traceWithin, h]

end Sys2Proof.Machine
end

