-- ==== Sys2Proof/Laws/Step.lean ====
section
/-! SUPPORT. What a step can do, said once, and each meaning as the shared operation it calls. -/

namespace Sys2Proof.Machine

/-! ### Each meaning -/

@[simp] theorem exec_addAIm (im : Nibble) (s : State) : exec (.addAIm im) s = .next (s.addInto .A im) := rfl
@[simp] theorem exec_addBIm (im : Nibble) (s : State) : exec (.addBIm im) s = .next (s.addInto .B im) := rfl
@[simp] theorem exec_movAB (s : State) : exec .movAB s = .next (s.moveInto .A (.reg .B)) := rfl
@[simp] theorem exec_movBA (s : State) : exec .movBA s = .next (s.moveInto .B (.reg .A)) := rfl
@[simp] theorem exec_movAIm (im : Nibble) (s : State) : exec (.movAIm im) s = .next (s.moveInto .A (.imm im)) := rfl
@[simp] theorem exec_movBIm (im : Nibble) (s : State) : exec (.movBIm im) s = .next (s.moveInto .B (.imm im)) := rfl
@[simp] theorem exec_inA (s : State) : exec .inA s = .next (s.moveInto .A .portInput) := rfl
@[simp] theorem exec_inB (s : State) : exec .inB s = .next (s.moveInto .B .portInput) := rfl
@[simp] theorem exec_outB (s : State) : exec .outB s = .next (s.outputFrom (.reg .B)) := rfl
@[simp] theorem exec_outIm (im : Nibble) (s : State) : exec (.outIm im) s = .next (s.outputFrom (.imm im)) := rfl
@[simp] theorem exec_jmp (im : Nibble) (s : State) : exec (.jmp im) s = .next (s.clearCarry.jumpTo im) := rfl
@[simp] theorem exec_jnc (im : Nibble) (s : State) :
    exec (.jnc im) s = .next (if s.carry then s.clearCarry.advance else s.clearCarry.jumpTo im) := rfl

/-! ### Fetch and decode -/

theorem State.fetched_of_running (s : State) (h : s.status = .running) : s.fetched = s.fetchRunning := by
  rw [State.fetched, h]

theorem State.fetched_of_ended (s : State) (h : s.status ≠ .running) : s.fetched = .idle := by
  unfold State.fetched
  split
  · contradiction
  · rfl
  · rfl

/-- A byte is fetched only below `rom_len` (R51), and then decides what is found. -/
theorem State.fetchRunning_of_byte (s : State) (ir : Byte) (hpc : s.pc.toNat < s.romLen.val)
    (hir : s.rom.read s.pc.toNat = some ir) :
    s.fetchRunning = match decode ir with
      | .ok i => .instruction i
      | .error _ => .undefined ir := by
  have hend : s.atEnd = false := by simp [State.atEnd, hpc]
  simp only [State.fetchRunning, hend, hir]
  rfl

/-- Each thing a step can find, with what it says of the state. -/
theorem State.fetched_cases (s : State) :
    (s.status ≠ .running ∧ s.fetched = .idle) ∨
    (s.status = .running ∧ s.romLen.val ≤ s.pc.toNat ∧ s.fetched = .pastEnd) ∨
    (s.status = .running ∧ s.pc.toNat < s.romLen.val ∧ s.rom.read s.pc.toNat = none ∧ s.fetched = .absent) ∨
    (∃ ir i, s.status = .running ∧ s.pc.toNat < s.romLen.val ∧ s.rom.read s.pc.toNat = some ir ∧
      decode ir = .ok i ∧ s.fetched = .instruction i) ∨
    (∃ ir e, s.status = .running ∧ s.pc.toNat < s.romLen.val ∧ s.rom.read s.pc.toNat = some ir ∧
      decode ir = .error e ∧ s.fetched = .undefined ir) := by
  by_cases hrun : s.status = .running
  · rw [State.fetched_of_running s hrun]
    by_cases hend : s.romLen.val ≤ s.pc.toNat
    · exact .inr (.inl ⟨hrun, hend, by simp [State.fetchRunning, State.atEnd, hend]⟩)
    · have hpc : s.pc.toNat < s.romLen.val := by omega
      cases hir : s.rom.read s.pc.toNat with
      | none =>
        exact .inr (.inr (.inl ⟨hrun, hpc, rfl, by simp [State.fetchRunning, State.atEnd, hpc, hir]⟩))
      | some ir =>
        rw [State.fetchRunning_of_byte s ir hpc hir]
        cases hdec : decode ir with
        | ok i => exact .inr (.inr (.inr (.inl ⟨ir, i, hrun, hpc, rfl, hdec, by simp⟩)))
        | error e => exact .inr (.inr (.inr (.inr ⟨ir, e, hrun, hpc, rfl, hdec, by simp⟩)))
  · exact .inl ⟨hrun, State.fetched_of_ended s hrun⟩

/-! ### The step -/

/-- Everything a step that answers a next state can have done. -/
theorem step_cases (s t : State) (h : step s = .next t) :
    (s.status ≠ .running ∧ t = s) ∨
    (s.status = .running ∧ s.romLen.val ≤ s.pc.toNat ∧ t = s.setStatus .halted) ∨
    (∃ ir i, s.status = .running ∧ s.pc.toNat < s.romLen.val ∧ s.rom.read s.pc.toNat = some ir ∧
      decode ir = .ok i ∧ exec i s = .next t) ∨
    (∃ ir e, s.status = .running ∧ s.pc.toNat < s.romLen.val ∧ s.rom.read s.pc.toNat = some ir ∧
      decode ir = .error e ∧ t = s.raiseDecodeError ir) := by
  rcases State.fetched_cases s with ⟨hrun, hf⟩ | ⟨hrun, hend, hf⟩ | ⟨_, _, _, hf⟩ |
    ⟨ir, i, hrun, hpc, hir, hdec, hf⟩ | ⟨ir, e, hrun, hpc, hir, hdec, hf⟩ <;> rw [step, hf] at h
  · exact .inl ⟨hrun, (Host.Outcome.next.inj h).symm⟩
  · exact .inr (.inl ⟨hrun, hend, (Host.Outcome.next.inj h).symm⟩)
  · cases h
  · exact .inr (.inr (.inl ⟨ir, i, hrun, hpc, hir, hdec, h⟩))
  · exact .inr (.inr (.inr ⟨ir, e, hrun, hpc, hir, hdec, (Host.Outcome.next.inj h).symm⟩))

/-! ### A filled ROM -/

/-- A ROM that holds exactly the addresses below `rom_len` is in the canonical form. -/
theorem State.RomFilled.wf {s : State} (h : s.RomFilled) : Memory.wf s.rom = true :=
  Memory.wf_of_range 0 s.romLen.val s.rom (by rw [h, List.range_eq_range'])

/-- In a filled ROM exactly the addresses below `rom_len` hold a byte (R56). -/
theorem State.RomFilled.read_isSome {s : State} (h : s.RomFilled) (addr : Nat) :
    (s.rom.read addr).isSome = decide (addr < s.romLen.val) := by
  rw [Memory.read_of_range 0 s.romLen.val s.rom (by rw [h, List.range_eq_range'])]
  simp

/-- A byte placed at the pc keeps the ROM filled, at and past `rom_len` too (assumption log 17). -/
theorem State.RomFilled.placeAtPc {s : State} (h : s.RomFilled) (ir : Byte) : (s.placeAtPc ir).RomFilled := by
  have hpc : s.pc.toNat < 16 := s.pc.isLt
  have hpad := Memory.padBelow_addresses s.pc.toNat s.romLen.val s.rom (by rw [h, List.range_eq_range'])
  simp only [State.RomFilled, State.placeAtPc_rom, State.placeAtPc_romLen, State.atEnd_iff, List.range_eq_range']
  by_cases hend : s.romLen.val ≤ s.pc.toNat
  · rw [show max s.pc.toNat s.romLen.val = s.pc.toNat by omega] at hpad
    have hstore := Memory.store_after 0 s.pc.toNat _ hpad ir
    rw [Nat.zero_add] at hstore
    rw [if_pos hend, hstore, Fin.val_ofNat, Nat.mod_eq_of_lt (by omega)]
  · rw [show max s.pc.toNat s.romLen.val = s.romLen.val by omega] at hpad
    rw [if_neg hend, Memory.store_inside 0 s.romLen.val _ hpad _ ir (by omega) (by omega)]

end Sys2Proof.Machine
end

