-- ==== Sys2Proof/Tests/Slice0.lean ====
section
/-! SUPPORT. Tests against the spec's own tables and vectors (95_test_vectors), and for each statement with hypotheses a
state that meets them. Expected values are the spec's, never the model's. -/

namespace Sys2Proof.Tests

open Sys2Proof.Machine

/-! ### Ill-formed terms are refused (WellFormed) -/

/-- Each reserved opcode of 30_encoding R77 is ill formed, with low nibbles from 0 to 15. -/
theorem test_reserved_opcodes_ill_formed :
    (Fields.mk 0b1000 0).wellFormed = false ∧ (Fields.mk 0b1010 15).wellFormed = false ∧
    (Fields.mk 0b1100 5).wellFormed = false ∧ (Fields.mk 0b1101 13).wellFormed = false ∧
    (Fields.mk 0b1001 12).wellFormed = true := by decide

/-- An image of 17 bytes is ill formed and one of 16 is not (10_state R34). -/
theorem test_image_of_17_bytes_ill_formed :
    imageWellFormed (List.replicate 17 0x01) = false ∧ imageWellFormed (List.replicate 16 0x01) = true := by decide

/-! ### Decoding: each row's byte, bit by bit from 30_encoding R76 -/

theorem test_decode_add_A_0011 : decode 0b00000011 = .ok (.addAIm 0b0011) := by rfl
theorem test_decode_mov_A_B : decode 0b00010000 = .ok .movAB := by rfl
theorem test_decode_mov_A_B_nibble_ignored : decode 0b00011111 = .ok .movAB := by rfl
theorem test_decode_in_A_nibble_ignored : decode 0b00101111 = .ok .inA := by rfl
theorem test_decode_mov_A_0101 : decode 0b00110101 = .ok (.movAIm 0b0101) := by rfl
theorem test_decode_mov_B_A_nibble_ignored : decode 0b01001010 = .ok .movBA := by rfl
theorem test_decode_add_B_0001 : decode 0b01010001 = .ok (.addBIm 0b0001) := by rfl
theorem test_decode_in_B : decode 0b01100000 = .ok .inB := by rfl
theorem test_decode_mov_B_1111 : decode 0b01111111 = .ok (.movBIm 0b1111) := by rfl
theorem test_decode_out_B_nibble_ignored : decode 0b10011100 = .ok .outB := by rfl
theorem test_decode_out_1010 : decode 0b10111010 = .ok (.outIm 0b1010) := by rfl
theorem test_decode_jnc_0111 : decode 0b11100111 = .ok (.jnc 0b0111) := by rfl
theorem test_decode_jmp_0010 : decode 0b11110010 = .ok (.jmp 0b0010) := by rfl

theorem test_decode_reserved :
    decode 0x80 = .error (.reservedOpcode 0b1000) ∧ decode 0xAF = .error (.reservedOpcode 0b1010) ∧
    decode 0xC5 = .error (.reservedOpcode 0b1100) ∧ decode 0xDD = .error (.reservedOpcode 0b1101) :=
  ⟨rfl, rfl, rfl, rfl⟩

/-- The bytes of 30_encoding R95 for the no-immediate instructions, and one with an immediate. -/
theorem test_encode_R95 :
    encode .movAB = 0x10 ∧ encode .inA = 0x20 ∧ encode .movBA = 0x40 ∧ encode .inB = 0x60 ∧
    encode .outB = 0x90 ∧ encode (.outIm 10) = 0xBA := by decide

theorem test_table_word : decodeTableWord 8 0xF0 = some (.jmp 0) ∧ decodeTableWord 8 0x80 = none := ⟨rfl, rfl⟩

/-! ### One step each, from the vectors of 95_test_vectors section 2 -/

/-- `len` ROM bytes, all 0x00 except `ir` at `pc`. -/
def romWith (ir : Byte) (pc : Nibble) (len : Nat) : Memory :=
  (List.range len).map fun k => (k, if k = pc.toNat then ir else 0x00)

/-- A RUNNING state `(A, B, carry, pc)` whose next byte is `ir`, as the vectors write it. -/
def vec (ir : Byte) (a b : Nibble) (carry : Bool) (pc : Nibble) (len : Fin 17) : State :=
  { State.reset with a := a, b := b, carry := carry, pc := pc, rom := romWith ir pc len.val, romLen := len }

/-- `(A, B, carry, pc)` and the status after one step. -/
def after (s : State) : Option (Nibble × Nibble × Bool × Nibble × Status) :=
  match step s with
  | .next t => some (t.a, t.b, t.carry, t.pc, t.status)
  | .fault _ => none
  | .refused _ => none

/-- The port's output and the trace after one step. -/
def portAfter (s : State) : Option (Nibble × List Nibble) :=
  match step s with
  | .next t => some (t.portOutput, t.outTrace)
  | .fault _ => none
  | .refused _ => none

/-- The status and the fault record after one step. -/
def faultAfter (s : State) : Option (Status × Option Fault) :=
  match step s with
  | .next t => some (t.status, t.fault)
  | .fault _ => none
  | .refused _ => none

theorem test_V1_movAIm : after (vec 0x35 0 0 true 0 2) = some (5, 0, false, 1, .running) := by decide
theorem test_V8_movAIm_pc15 : after (vec 0x31 0 0 false 15 16) = some (1, 0, false, 0, .halted) := by decide
theorem test_V3_movBIm : after (vec 0x70 4 9 true 5 8) = some (4, 0, false, 6, .running) := by decide
theorem test_V5_movAB : after (vec 0x1F 3 9 true 0 4) = some (9, 9, false, 1, .running) := by decide
theorem test_V6_movBA : after (vec 0x40 12 1 true 2 4) = some (12, 12, false, 3, .running) := by decide
theorem test_V12_addAIm_largest : after (vec 0x0F 15 0 false 0 4) = some (14, 0, true, 1, .running) := by decide
theorem test_V19b_addAIm_no_carry_in : after (vec 0x01 3 0 true 3 4) = some (4, 0, false, 4, .halted) := by decide
theorem test_V17_addBIm : after (vec 0x51 0 15 false 0 4) = some (0, 0, true, 1, .running) := by decide
theorem test_V18_addBIm : after (vec 0x5F 0 0 false 0 4) = some (0, 15, false, 1, .running) := by decide
theorem test_V20_jmp : after (vec 0xF2 0 0 true 0 3) = some (0, 0, false, 2, .running) := by decide
theorem test_V22_jmp_past_end : after (vec 0xF5 0 0 false 1 3) = some (0, 0, false, 5, .halted) := by decide
theorem test_V25_jnc_not_taken : after (vec 0xE0 0 0 true 1 4) = some (0, 0, false, 2, .running) := by decide
theorem test_V27_jnc_taken_at_15 : after (vec 0xE7 0 0 false 15 16) = some (0, 0, false, 7, .running) := by decide
theorem test_V30_inA :
    after { vec 0x20 0 0 false 0 4 with portInput := 10 } = some (10, 0, false, 1, .running) := by decide
theorem test_V32_inB :
    after { vec 0x60 0 0 true 0 4 with portInput := 7 } = some (0, 7, false, 1, .running) := by decide
theorem test_V34_outB_same_value_traced :
    portAfter { vec 0x90 0 6 false 1 4 with portOutput := 6, outTrace := [6] } = some (6, [6, 6]) := by decide
theorem test_V35_outIm : portAfter (vec 0xB3 0 0 true 0 4) = some (3, [3]) := by decide

theorem test_V40_decode_error :
    faultAfter (vec 0x80 1 0 false 1 3) = some (.faulted, some (.decodeError 1 0x80)) := by decide
theorem test_V42_fault_changes_no_flag : after (vec 0x80 0 0 true 0 1) = some (0, 0, true, 0, .faulted) := by decide
theorem test_V50_empty_rom_halts_at_fetch : after State.reset = some (0, 0, false, 0, .halted) := by decide

/-- A word placed where the first fetch after reset reads is what runs (V1's byte). -/
theorem test_withFetchWord : after (State.reset.withFetchWord 8 0x35) = some (5, 0, false, 1, .halted) := by decide

/-- The interface of 10_state R40 at an OUT B and at a fault. -/
theorem test_signals :
    (vec 0x9C 0 9 false 0 4).outValid = true ∧ (vec 0x20 0 9 false 0 4).outValid = false ∧
    (vec 0x9C 0 9 false 0 4).signals.romData = some 0x9C ∧ (vec 0x9C 0 9 false 0 4).signals.faultIr = none ∧
    ((vec 0x80 0 0 false 1 3).raiseDecodeError 0x80).signals.faultPc = some 1 := by decide

/-- The observation and the trace of a run that ends: `out 0011` alone in the ROM (V35's byte, R110, R114). -/
theorem test_observe_end : traceWithin 3 (vec 0xB3 0 0 true 0 1) = [3] ∧
    (vec 0xB3 0 0 true 0 1).observe = none ∧
    ((vec 0xB3 0 0 true 0 1).setStatus .halted).observe = some ⟨0, 0, true, 0, 0, [], none⟩ := by decide

/-! ### The toolchain, from 95_test_vectors section 2.6 -/

theorem test_T1 : (assembleWords false ["mov", "A", "0001", "add", "A", "0001"]).toOption = some [0x31, 0x01] := by
  decide
theorem test_T2_empty : assembleWords false [] = .error .emptyProgram := by decide
theorem test_T3_missing_operand : parse false ["jmp"] = .error .missingOperand := by decide
theorem test_T4_mov_A_A : parse false ["mov", "A", "A"] = .error (.badImmediate "A") := by decide
theorem test_T5_bad_register : parse true ["mov", "C", "0001"] = .error (.badRegister "C") := by decide
theorem test_T6_not_four_digits : parse false ["add", "A", "12"] = .error (.badImmediate "12") := by decide
theorem test_T8_skip : assembleDefault ["nop", "out", "B"] = .ok [0x90] := by decide
theorem test_T8s_strict : assembleWords true ["nop", "out", "B"] = .error (.unknownMnemonic "nop") := by decide
theorem test_T10_case_sensitive : assembleWords false ["MOV", "A", "0001"] = .error .emptyProgram := by decide
theorem test_T13 : assembleWords true ["mov", "B", "A", "mov", "A", "B"] = .ok [0x40, 0x10] := by decide
theorem test_T15_operand_consumed : parse false ["jnc", "add"] = .error (.badImmediate "add") := by decide
theorem test_disassemble_R99 : disassemble 0x4A = .ok ["mov", "B", "A"] ∧ disassemble 0xBA = .ok ["out", "1010"] := by
  decide

/-! ### Witnesses: each statement's hypotheses can be met together -/

theorem witness_DecodeIsTheOpcodeMap :
    (opField 0x1F = opcodeOf .movAB ∧ Instr.movAB ∈ [Instr.movAB, .movBA, .inA, .inB, .outB]) ∧
    (opField 0xFF = opcodeOf (.jmp 15) ∧ imField 0xFF = immediateOf (.jmp 15)) := by decide
theorem witness_ReservedOpcodesRefused :
    decode 0x8F = .error (.reservedOpcode 8) ∧ decode 0xA0 = .error (.reservedOpcode 10) ∧
    decode 0xCF = .error (.reservedOpcode 12) ∧ decode 0xD0 = .error (.reservedOpcode 13) := ⟨rfl, rfl, rfl, rfl⟩
theorem witness_StepRunsDecodedInstruction : ∃ (s : State) (ir : Byte) (i : Instr),
    s.status = .running ∧ s.pc.toNat < s.romLen.val ∧ s.rom.read s.pc.toNat = some ir ∧ decode ir = .ok i :=
  ⟨vec 0xFF 0 0 false 15 16, 0xFF, .jmp 15, by decide⟩
theorem witness_FetchPastEndHalts : ∃ s : State, s.status = .running ∧ s.romLen.val ≤ s.pc.toNat :=
  ⟨vec 0x80 0 0 true 3 3, by decide⟩
theorem witness_ReservedOpcodeTakesDecodeError : ∃ s : State, s.status = .running ∧
    s.pc.toNat < s.romLen.val ∧ s.rom.read s.pc.toNat = some 0xDF ∧ opField 0xDF = 0b1101#4 :=
  ⟨vec 0xDF 0 0 true 2 3, by decide⟩
theorem witness_TerminalStatesStay : ∃ s t : State, s.status ≠ .running ∧ t.status ≠ .running ∧ s.status ≠ t.status :=
  ⟨State.reset.setStatus .halted, State.reset.raiseDecodeError 0x80, by decide⟩
theorem witness_ResetRunsFirstInstruction : ∃ s : State, s.status = .faulted ∧ 0 < s.romLen.val ∧
    s.rom.read 0 = some 0x10 ∧ decode 0x10 = .ok .movAB :=
  ⟨(vec 0x10 0 0 false 0 1).raiseDecodeError 0x80, by decide⟩
theorem witness_MissingRomByteRefused : ∃ s : State, s.status = .running ∧ s.pc.toNat < s.romLen.val ∧
    s.rom.read s.pc.toNat = none :=
  ⟨{ State.reset with romLen := 1 }, by decide⟩
theorem witness_StepTotalOnFilledRom : (vec 0x35 0 0 true 0 16).RomFilled ∧ State.reset.RomFilled := by
  unfold State.RomFilled
  decide
theorem witness_PlacedWordRunsNext : decode 0xFF = .ok (.jmp 15) := by decide
/-- The pc clause of both ADD statements at its boundary, 14; at 15 `AddAdvances` applies. -/
theorem witness_AddPcBelow15 : ∃ s : State, s.pc.toNat < 15 ∧ s.pc.toNat + 1 = 15 :=
  ⟨vec 0x01 15 15 true 14 16, by decide⟩
theorem witness_JncResult : (vec 0xE0 0 0 false 1 4).carry = false ∧ (vec 0xE0 0 0 true 1 4).carry = true := by decide
theorem witness_RegisterInstructionFrame : ∃ t u v : State,
    exec .movAB (vec 0x10 3 9 true 15 16) = .next t ∧ exec (.addAIm 15) (vec 0x0F 3 9 true 15 16) = .next u ∧
    exec .inB (vec 0x60 3 9 true 15 16) = .next v := ⟨_, _, _, rfl, rfl, rfl⟩
theorem witness_OutputInstructionFrame : ∃ t u : State,
    exec .outB (vec 0x90 3 9 true 15 16) = .next t ∧ exec (.outIm 15) (vec 0xBF 3 9 true 15 16) = .next u :=
  ⟨_, _, rfl, rfl⟩
theorem witness_JumpInstructionFrame : ∃ t u : State,
    exec (.jmp 15) (vec 0xFF 3 9 true 15 16) = .next t ∧ exec (.jnc 0) (vec 0xE0 3 9 true 15 16) = .next u :=
  ⟨_, _, rfl, rfl⟩
theorem witness_CarryAfterStep_instructions : ∃ t u v : State,
    exec (.addAIm 1) (vec 0x01 15 0 false 0 4) = .next t ∧ exec (.addBIm 15) (vec 0x5F 0 0 true 0 4) = .next u ∧
    exec (.jnc 3) (vec 0xE3 0 0 true 0 4) = .next v ∧ isAdd (.jnc 3) = false := ⟨_, _, _, rfl, rfl, rfl, rfl⟩
theorem witness_CarryAfterStep_fault : ∃ s : State, s.status = .running ∧ s.pc.toNat < s.romLen.val ∧
    s.rom.read s.pc.toNat = some 0x80 ∧ (fieldsOf 0x80).wellFormed = false ∧ s.carry = true :=
  ⟨vec 0x80 0 0 true 0 1, by decide⟩
theorem witness_CarryReadByJncAlone : (∀ im, Instr.addAIm 1 ≠ .jnc im) ∧
    (vec 0xE0 0 0 true 14 16).carry = true ∧ (vec 0xE0 0 0 true 14 16).pc.toNat < 15 ∧
    (vec 0xE0 0 0 false 15 16).carry = false := ⟨fun _ h => (by cases h), by decide⟩
theorem witness_JumpNotIncremented : (vec 0xE0 0 0 true 14 16).carry = true ∧
    (vec 0xE0 0 0 true 14 16).pc.toNat < 15 ∧ (vec 0xE0 0 0 false 14 16).carry = false := by decide
theorem witness_JncSeesCarryOfAdd :
    (vec 0x01 14 0 true 0 4).a.toNat + (1 : Nibble).toNat ≤ 15 ∧
    15 < (vec 0x01 15 0 false 0 4).a.toNat + (1 : Nibble).toNat := by decide
theorem witness_JncAfterNonAddTaken : isAdd .movAB = false ∧ isAdd (.jnc 0) = false := by decide
/-- A halt at FETCH, by a non-jump at 15, by a JNC not taken at the last byte, and by both jumps taken past the end. -/
theorem witness_HaltsOnlyAtEndOfMemory : ∃ r t u v w : State,
    step (vec 0x31 0 0 false 3 3) = .next r ∧ r.status = .halted ∧
    step (vec 0x31 0 0 false 15 16) = .next t ∧ t.status = .halted ∧
    step (vec 0xE0 0 0 true 2 3) = .next u ∧ u.status = .halted ∧
    step (vec 0xF3 0 0 false 2 3) = .next v ∧ v.status = .halted ∧
    step (vec 0xE9 0 0 false 0 3) = .next w ∧ w.status = .halted :=
  ⟨_, _, _, _, _, rfl, by decide, rfl, by decide, rfl, by decide, rfl, by decide, rfl, by decide⟩
theorem witness_RunningPcStaysInRom : ∃ t : State,
    (vec 0xFF 0 0 false 0 16).status = .running ∧ step (vec 0xFF 0 0 false 0 16) = .next t ∧ t.status = .running :=
  ⟨_, by decide, rfl, by decide⟩
theorem witness_SelfJumpNeverEnds_jmp : ∃ s : State, s.status = .running ∧ s.pc.toNat < s.romLen.val ∧
    s.rom.read s.pc.toNat = some 0xFF ∧ decode 0xFF = .ok (.jmp s.pc) :=
  ⟨vec 0xFF 1 2 true 15 16, by decide⟩
theorem witness_SelfJumpNeverEnds_jnc : ∃ s : State, s.status = .running ∧ s.pc.toNat < s.romLen.val ∧
    s.rom.read s.pc.toNat = some 0xE3 ∧ decode 0xE3 = .ok (.jnc s.pc) ∧ s.carry = false :=
  ⟨vec 0xE3 0 0 false 3 4, by decide⟩
/-- A full ROM whose last byte is MOV B,A and the others ADD A,0 (the start of the longest straight run). -/
theorem witness_StraightLineRunEnds : ∃ s : State, s.RomFilled ∧ s.status = .running ∧ s.pc = 0 ∧ s.romLen = 16 ∧
    ∀ addr ir i, s.rom.read addr = some ir → decode ir = .ok i → isJump i = false := by
  refine ⟨{ vec 0x40 1 2 true 15 16 with pc := 0 }, by unfold State.RomFilled; decide, rfl, rfl, rfl, ?_⟩
  intro addr ir i hr hd
  have hmem : ∀ m : Memory, Memory.read m addr = some ir → ∃ c ∈ m, c.2 = ir := by
    intro m
    induction m with
    | nil => intro h; cases h
    | cons c rest ih =>
      intro h
      rw [Memory.read_cons] at h
      split at h
      · exact ⟨c, by simp, Option.some.inj h⟩
      · obtain ⟨d, hd, he⟩ := ih h
        exact ⟨d, by simp [hd], he⟩
  obtain ⟨c, hc, rfl⟩ := hmem _ hr
  have hall : ∀ c ∈ romWith 0x40 15 16, c.2 = 0x00 ∨ c.2 = 0x40 := by decide
  rcases hall c hc with h | h <;> rw [h] at hd <;> cases hd <;> rfl
theorem witness_InputReadByInAlone : Instr.outB ≠ .inA ∧ Instr.outB ≠ .inB := by decide
theorem witness_OutputNeverRead : writesPort .outB = true ∧ writesPort (.outIm 0) = true ∧ writesPort .inA = false := by
  decide
/-- For each register, an instruction that overwrites it and one that keeps it, neither of which reads it. -/
theorem witness_RegistersReadWhereNamed :
    (Instr.inA ≠ .movBA ∧ ∀ im, Instr.inA ≠ .addAIm im) ∧
    (Instr.outB ≠ .movBA ∧ (∀ im, Instr.outB ≠ .addAIm im) ∧ (∀ im, Instr.outB ≠ .movAIm im) ∧
      Instr.outB ≠ .movAB ∧ Instr.outB ≠ .inA) ∧
    (Instr.movBA ≠ .movAB ∧ Instr.movBA ≠ .outB ∧ ∀ im, Instr.movBA ≠ .addBIm im) ∧
    (Instr.inA ≠ .movAB ∧ Instr.inA ≠ .outB ∧ (∀ im, Instr.inA ≠ .addBIm im) ∧ (∀ im, Instr.inA ≠ .movBIm im) ∧
      Instr.inA ≠ .movBA ∧ Instr.inA ≠ .inB) := by
  simp
theorem witness_TraceGrowsExactlyByOut : ∃ t u : State,
    step (vec 0x90 0 6 false 1 4) = .next t ∧ (vec 0x90 0 6 false 1 4).outValid = true ∧
    step (vec 0x20 0 6 false 1 4) = .next u ∧ (vec 0x20 0 6 false 1 4).outValid = false :=
  ⟨_, _, rfl, by decide, rfl, by decide⟩
theorem witness_StepNeverWritesRom : ∃ t : State, step (vec 0xB5 0 0 false 15 16) = .next t := ⟨_, rfl⟩
theorem witness_LaunchStaysFixed : ∃ t u : State,
    serve .rst (vec 0x31 0 0 false 0 2) = .next t ∧ runWithin 2 (vec 0x31 0 0 false 0 2) = .next u :=
  ⟨_, _, rfl, rfl⟩
theorem witness_ResetValues : ∃ t : State, serve .rst ((vec 0x31 7 8 true 9 16).writePort 5) = .next t := ⟨_, rfl⟩
/-- A FAULTED state, with its record and a non-empty trace, meets the invariant. -/
theorem witness_StepKeepsInvariant : ∃ s t : State, s.Inv ∧ s.status = .running ∧ s.outTrace ≠ [] ∧
    step s = .next t ∧ t.status = .faulted :=
  ⟨(vec 0x80 1 0 false 1 3).writePort 5, _, ⟨by unfold State.RomFilled; decide,
    show Status.running ≠ .faulted by decide, rfl⟩, rfl, by decide, rfl, rfl⟩
theorem witness_HostResetGivesInvariant : ∃ s t : State, s.RomFilled ∧ s.status = .faulted ∧ serve .rst s = .next t :=
  ⟨(vec 0x80 1 0 false 1 3).raiseDecodeError 0x80, _, by unfold State.RomFilled; decide, rfl, rfl⟩
theorem witness_LaunchPlacesImage : (List.replicate 16 (0x01 : Byte)).length ≤ 16 ∧ ([] : List Byte).length ≤ 16 := by
  decide
theorem witness_OverlongImageRefused : 16 < (List.replicate 17 (0x01 : Byte)).length := by decide
theorem witness_LargerBudgetSameEnd : ∃ t : State, runWithin 1 (vec 0x35 0 0 false 0 1) = .next t ∧ t.status ≠ .running :=
  ⟨_, rfl, by decide⟩
/-- Filled ROMs of a run that ends and of one that does not (JMP 0 at 0). -/
theorem witness_RunHasOneObservation : (vec 0x35 0 0 false 0 1).RomFilled ∧ (vec 0xF0 0 0 false 0 1).RomFilled := by
  unfold State.RomFilled
  decide
theorem witness_AssembleOneBytePerToken : [Token.outB, .jmp 15] ≠ [] ∧ 1 < [Token.outB, .jmp 15].length ∧
    Token.inp .B ∈ [Token.movAB, .movBA, .inp .A, .inp .B, .outB] := by decide
theorem witness_AssembledProgramsNeverFault : ∃ (image : List Byte) (s t : State),
    assemble [.mov .A 1, .add .A 1] = .ok image ∧ launch image 0 = .next s ∧ runWithin 2 s = .next t :=
  ⟨_, _, _, rfl, rfl, rfl⟩
theorem witness_DefinedRomNeverFaults : ∃ s t : State, s.RomDefined ∧ s.status ≠ .faulted ∧ s.romLen = 1 ∧
    step s = .next t := by
  refine ⟨vec 0x31 0 0 false 0 1, _, ?_, by decide, rfl, rfl⟩
  intro addr ir h
  change Memory.read [(0, 0x31)] addr = some ir at h
  rw [Memory.read_cons] at h
  split at h
  · cases h; decide
  · cases h
theorem witness_DisassemblyReassembles : disassemble 0x1F = .ok ["mov", "A", "B"] := by decide
theorem witness_UnknownWordSkipped : mnemonicOf "#" = none ∧ mnemonicOf "MOV" = none := by decide

end Sys2Proof.Tests
end

section
/-! SUPPORT. Every instruction in two phases (40_cycle R100): EXECUTE writes registers, carry and port; then the engine
advances or takes a jump, and the HALT check runs. What a whole instruction changes, and what it reads, is said from
these two. -/

namespace Sys2Proof.Machine

/-! ### The two phases -/

/-- What EXECUTE writes (R103 to R105): registers, carry, port and trace; never the pc or the status. -/
def State.execute (s : State) : Instr → State
  | .addAIm im => (s.writeReg .A (sumResult s.a im)).setCarry (sumCarry s.a im)
  | .movAB => (s.writeReg .A s.b).clearCarry
  | .inA => (s.writeReg .A s.portInput).clearCarry
  | .movAIm im => (s.writeReg .A im).clearCarry
  | .movBA => (s.writeReg .B s.a).clearCarry
  | .addBIm im => (s.writeReg .B (sumResult s.b im)).setCarry (sumCarry s.b im)
  | .inB => (s.writeReg .B s.portInput).clearCarry
  | .movBIm im => (s.writeReg .B im).clearCarry
  | .outB => (s.writePort s.b).clearCarry
  | .outIm im => (s.writePort im).clearCarry
  | .jnc _ => s.clearCarry
  | .jmp _ => s.clearCarry

/-- The target an instruction jumps to, given the carry of the start of the step (R104, R140, R141). -/
def jumpTarget : Instr → Bool → Option Nibble
  | .jmp im, _ => some im
  | .jnc im, carry => if carry then none else some im
  | _, _ => none

/-- The second phase: a taken jump, or ADVANCE where there is no target (R108). -/
def State.moveOn (s : State) : Option Nibble → State
  | none => s.advance
  | some target => s.jumpTo target

/-- Every instruction completes, by EXECUTE and then the move of the pc. -/
theorem exec_eq_phases (i : Instr) (s : State) :
    exec i s = .next ((s.execute i).moveOn (jumpTarget i s.carry)) := by
  cases i with
  | jnc im =>
    rw [exec_jnc]
    cases hc : s.carry <;> simp [jumpTarget, State.moveOn, State.execute]
  | _ => rfl

theorem eq_phases_of_exec {i : Instr} {s t : State} (h : exec i s = .next t) :
    t = (s.execute i).moveOn (jumpTarget i s.carry) := by
  rw [exec_eq_phases] at h
  exact (Host.Outcome.next.inj h).symm

/-! ### What each phase leaves unchanged -/

@[simp] theorem State.execute_status (s : State) (i : Instr) : (s.execute i).status = s.status := by
  cases i <;> rfl
@[simp] theorem State.execute_fault (s : State) (i : Instr) : (s.execute i).fault = s.fault := by
  cases i <;> rfl
@[simp] theorem State.execute_rom (s : State) (i : Instr) : (s.execute i).rom = s.rom := by
  cases i <;> rfl
@[simp] theorem State.execute_romLen (s : State) (i : Instr) : (s.execute i).romLen = s.romLen := by
  cases i <;> rfl
@[simp] theorem State.execute_portInput (s : State) (i : Instr) : (s.execute i).portInput = s.portInput := by
  cases i <;> rfl

@[simp] theorem State.moveOn_a (s : State) (j : Option Nibble) : (s.moveOn j).a = s.a := by
  cases j <;> simp [State.moveOn]
@[simp] theorem State.moveOn_b (s : State) (j : Option Nibble) : (s.moveOn j).b = s.b := by
  cases j <;> simp [State.moveOn]
@[simp] theorem State.moveOn_portOutput (s : State) (j : Option Nibble) : (s.moveOn j).portOutput = s.portOutput := by
  cases j <;> simp [State.moveOn]
@[simp] theorem State.moveOn_outTrace (s : State) (j : Option Nibble) : (s.moveOn j).outTrace = s.outTrace := by
  cases j <;> simp [State.moveOn]
@[simp] theorem State.moveOn_fault (s : State) (j : Option Nibble) : (s.moveOn j).fault = s.fault := by
  cases j <;> simp [State.moveOn]
@[simp] theorem State.moveOn_rom (s : State) (j : Option Nibble) : (s.moveOn j).rom = s.rom := by
  cases j <;> simp [State.moveOn]
@[simp] theorem State.moveOn_romLen (s : State) (j : Option Nibble) : (s.moveOn j).romLen = s.romLen := by
  cases j <;> simp [State.moveOn]
@[simp] theorem State.moveOn_portInput (s : State) (j : Option Nibble) : (s.moveOn j).portInput = s.portInput := by
  cases j <;> simp [State.moveOn]

/-- The HALT check can only halt. -/
theorem State.moveOn_status (s : State) (j : Option Nibble) :
    (s.moveOn j).status = s.status ∨ (s.moveOn j).status = .halted := by
  cases j with
  | none => rw [State.moveOn, State.advance_status]; split <;> simp
  | some target => rw [State.moveOn, State.jumpTo_status]; split <;> simp

/-! ### What an executed instruction changes -/

theorem exec_a {i : Instr} {s t : State} (h : exec i s = .next t) : t.a = (s.execute i).a := by
  simp [eq_phases_of_exec h]
theorem exec_b {i : Instr} {s t : State} (h : exec i s = .next t) : t.b = (s.execute i).b := by
  simp [eq_phases_of_exec h]
theorem exec_portOutput {i : Instr} {s t : State} (h : exec i s = .next t) :
    t.portOutput = (s.execute i).portOutput := by
  simp [eq_phases_of_exec h]
theorem exec_outTrace {i : Instr} {s t : State} (h : exec i s = .next t) : t.outTrace = (s.execute i).outTrace := by
  simp [eq_phases_of_exec h]
theorem exec_fault {i : Instr} {s t : State} (h : exec i s = .next t) : t.fault = s.fault := by
  simp [eq_phases_of_exec h]
theorem exec_rom {i : Instr} {s t : State} (h : exec i s = .next t) : t.rom = s.rom := by
  simp [eq_phases_of_exec h]
theorem exec_romLen {i : Instr} {s t : State} (h : exec i s = .next t) : t.romLen = s.romLen := by
  simp [eq_phases_of_exec h]
theorem exec_portInput {i : Instr} {s t : State} (h : exec i s = .next t) : t.portInput = s.portInput := by
  simp [eq_phases_of_exec h]

theorem exec_status {i : Instr} {s t : State} (h : exec i s = .next t) : t.status = s.status ∨ t.status = .halted := by
  have hmove := (s.execute i).moveOn_status (jumpTarget i s.carry)
  rwa [← eq_phases_of_exec h, State.execute_status] at hmove

/-- No instruction changes the fault record or the launch configuration (R52, R162). -/
theorem exec_sameLaunchAndFault {i : Instr} {s t : State} (h : exec i s = .next t) : s.SameLaunchAndFault t :=
  ⟨exec_fault h, fun addr => by rw [exec_rom h], exec_romLen h, exec_portInput h⟩

/-- An instruction other than OUT keeps the port (R24). -/
theorem exec_samePort {i : Instr} {s t : State} (h : exec i s = .next t) (hw : writesPort i = false) :
    s.SamePort t := by
  rw [State.SamePort, exec_portOutput h, exec_outTrace h]
  cases i with
  | outB => cases hw
  | outIm im => cases hw
  | _ => exact ⟨rfl, rfl⟩

/-- An OUT appends its output to the trace (R31). -/
theorem exec_traced {i : Instr} {s t : State} (h : exec i s = .next t) (hw : writesPort i = true) :
    t.outTrace = s.outTrace ++ [t.portOutput] := by
  rw [exec_portOutput h, exec_outTrace h]
  cases i with
  | outB => rfl
  | outIm im => rfl
  | _ => cases hw

/-! ### What an executed instruction reads -/

/-- An update of the state that the second phase does not see: it leaves alone what the HALT check reads, and commutes
with the writes of the pc and the status. -/
structure OffControl (g : State → State) : Prop where
  pc : ∀ s, (g s).pc = s.pc
  romLen : ∀ s, (g s).romLen = s.romLen
  setPc : ∀ s target, (g s).setPc target = g (s.setPc target)
  setStatus : ∀ s v, (g s).setStatus v = g (s.setStatus v)

theorem OffControl.haltCheck {g : State → State} (hg : OffControl g) (s : State) (ovf : Bool) :
    (g s).haltCheck ovf = g (s.haltCheck ovf) := by
  have hend : (g s).atEnd = s.atEnd := by rw [State.atEnd, State.atEnd, hg.pc, hg.romLen]
  rw [State.haltCheck, State.haltCheck, hend]
  split
  · exact hg.setStatus s .halted
  · rfl

theorem OffControl.moveOn {g : State → State} (hg : OffControl g) (s : State) (j : Option Nibble) :
    (g s).moveOn j = g (s.moveOn j) := by
  cases j with
  | none => simp only [State.moveOn, State.advance, hg.pc, hg.setPc, hg.haltCheck]
  | some target => simp only [State.moveOn, State.jumpTo, hg.setPc, hg.haltCheck]

/-- The port's output and the trace, replaced. -/
def State.setPort (s : State) (p : Nibble) (tr : List Nibble) : State := { s with portOutput := p, outTrace := tr }

/-- The port's input, replaced. -/
def State.setInput (s : State) (v : Nibble) : State := { s with portInput := v }

theorem offControl_writeReg (r : Reg) (v : Nibble) : OffControl (·.writeReg r v) := by
  cases r <;> exact ⟨fun _ => rfl, fun _ => rfl, fun _ _ => rfl, fun _ _ => rfl⟩

theorem offControl_setPort (p : Nibble) (tr : List Nibble) : OffControl (·.setPort p tr) :=
  ⟨fun _ => rfl, fun _ => rfl, fun _ _ => rfl, fun _ _ => rfl⟩

theorem offControl_setInput (v : Nibble) : OffControl (·.setInput v) :=
  ⟨fun _ => rfl, fun _ => rfl, fun _ _ => rfl, fun _ _ => rfl⟩

/-- Two states with the same carry that EXECUTE sends to states apart by an update off the control go, by the whole
instruction, to states apart by that update. -/
theorem exec_of_execute_eq_update {g : State → State} (hg : OffControl g) {i : Instr} {s s' t : State}
    (h : exec i s = .next t) (hcarry : s'.carry = s.carry) (hexec : s'.execute i = g (s.execute i)) :
    exec i s' = .next (g t) := by
  rw [exec_eq_phases, hexec, hcarry, hg.moveOn, ← eq_phases_of_exec h]

/-- An update off the control that EXECUTE keeps as it is, the whole instruction keeps as it is. -/
theorem exec_keeps_update {g : State → State} (hg : OffControl g) {i : Instr} {s : State}
    (hcarry : (g s).carry = s.carry) (hexec : (g s).execute i = g (s.execute i)) :
    ∃ t, exec i s = .next t ∧ exec i (g s) = .next (g t) :=
  ⟨_, exec_eq_phases i s, exec_of_execute_eq_update hg (exec_eq_phases i s) hcarry hexec⟩

/-- Two states with the same carry that EXECUTE sends to one state go to one state. -/
theorem exec_eq_of_execute_eq {i : Instr} {s s' : State} (hcarry : s'.carry = s.carry)
    (hexec : s'.execute i = s.execute i) : exec i s' = exec i s := by
  rw [exec_eq_phases, exec_eq_phases, hexec, hcarry]

/-! ### The decoder, the step and the ROM -/

/-- The decoder accepts exactly the defined opcodes (R76, R77). -/
theorem decode_isOk (ir : Byte) : (decode ir).isOk = (fieldsOf ir).wellFormed := by
  have hfields : ∀ op im : Nibble, (decodeFields ⟨op, im⟩).isOk = (Fields.mk op im).wellFormed := by decide
  exact hfields _ _

theorem not_wellFormed_of_decode_error {ir : Byte} {e : DecodeReject} (h : decode ir = .error e) :
    (fieldsOf ir).wellFormed = false := by
  rw [← decode_isOk, h]
  rfl

/-- No step changes the launch configuration (R52, R181). -/
theorem step_keeps_launch {s t : State} (h : step s = .next t) :
    t.rom = s.rom ∧ t.romLen = s.romLen ∧ t.portInput = s.portInput := by
  obtain ⟨_, rfl⟩ | ⟨_, _, rfl⟩ | ⟨_, _, _, _, _, _, hexec⟩ | ⟨_, _, _, _, _, _, rfl⟩ := step_cases s t h
  · exact ⟨rfl, rfl, rfl⟩
  · exact ⟨rfl, rfl, rfl⟩
  · exact ⟨exec_rom hexec, exec_romLen hexec, exec_portInput hexec⟩
  · exact ⟨rfl, rfl, rfl⟩

/-- Reading a laid-out image gives its bytes, and nothing past its end (R33, R56). -/
theorem Memory.read_cellsFrom (base : Nat) (image : List Byte) (k : Nat) :
    Memory.read (cellsFrom base image) (base + k) = image[k]? := by
  induction image generalizing base k with
  | nil => rfl
  | cons v rest ih =>
    rw [cellsFrom, Memory.read_cons]
    cases k with
    | zero => simp
    | succ k =>
      rw [if_neg (by omega : base ≠ base + (k + 1)), show base + (k + 1) = base + 1 + k by omega, ih]
      rfl

/-! ### The parts of the invariant -/

/-- Outside FAULTED the fault record agrees exactly when there is none. -/
theorem State.faultAgrees_iff_none {s : State} (hs : s.status ≠ .faulted) : s.FaultAgrees ↔ s.fault = none := by
  unfold State.FaultAgrees
  split
  · rename_i hnone
    simp [hs, hnone]
  · rename_i hsome
    simp [hs, hsome]

theorem step_romFilled {s t : State} (hs : s.RomFilled) (h : step s = .next t) : t.RomFilled := by
  obtain ⟨hrom, hlen, -⟩ := step_keeps_launch h
  rwa [State.RomFilled, hrom, hlen]

theorem step_faultAgrees {s t : State} (hs : s.FaultAgrees) (h : step s = .next t) : t.FaultAgrees := by
  have hnone (hrun : s.status = .running) : s.fault = none :=
    (State.faultAgrees_iff_none (by simp [hrun])).1 hs
  obtain ⟨_, rfl⟩ | ⟨hrun, _, rfl⟩ | ⟨_, _, hrun, _, _, _, hexec⟩ | ⟨ir, e, _, _, hir, hdec, rfl⟩ := step_cases s t h
  · exact hs
  · exact (State.faultAgrees_iff_none (by simp)).2 (hnone hrun)
  · have hstatus : t.status ≠ .faulted := by
      rcases exec_status hexec with ht | ht <;> simp [ht, hrun]
    exact (State.faultAgrees_iff_none hstatus).2 ((exec_fault hexec).trans (hnone hrun))
  · exact ⟨rfl, rfl, hir, not_wellFormed_of_decode_error hdec⟩

theorem exec_portAgrees {i : Instr} {s t : State} (hs : s.PortAgrees) (h : exec i s = .next t) : t.PortAgrees := by
  cases hw : writesPort i with
  | false =>
    obtain ⟨hout, htrace⟩ := exec_samePort h hw
    rwa [State.PortAgrees, hout, htrace]
  | true => rw [State.PortAgrees, exec_traced h hw, List.getLastD_concat]

theorem step_portAgrees {s t : State} (hs : s.PortAgrees) (h : step s = .next t) : t.PortAgrees := by
  obtain ⟨_, rfl⟩ | ⟨_, _, rfl⟩ | ⟨_, _, _, _, _, _, hexec⟩ | ⟨_, _, _, _, _, _, rfl⟩ := step_cases s t h
  · exact hs
  · exact hs
  · exact exec_portAgrees hs hexec
  · exact hs

/-- The host's reset of a filled ROM meets the invariant (R180, R181). -/
theorem State.RomFilled.hostReset_inv {s : State} (h : s.RomFilled) : s.hostReset.Inv :=
  ⟨h, (State.faultAgrees_iff_none (by simp)).2 rfl, rfl⟩

theorem State.withLaunch_romLen_val (s : State) {image : List Byte} (input : Nibble) (h : image.length ≤ 16) :
    (s.withLaunch image input).romLen.val = image.length := by
  rw [State.withLaunch_romLen, Fin.val_ofNat, Nat.mod_eq_of_lt (by omega)]

/-- A launched image that fits fills the ROM (R32, R56). -/
theorem State.withLaunch_romFilled (s : State) {image : List Byte} (input : Nibble) (h : image.length ≤ 16) :
    (s.withLaunch image input).RomFilled := by
  rw [State.RomFilled, s.withLaunch_romLen_val input h, State.withLaunch_rom, cellsFrom_addresses,
    List.range_eq_range']

end Sys2Proof.Machine
end

section
/-! The statements on the state: the invariant, frames, what is read, reset and launch. -/

namespace Sys2Proof.Machine

/-- Settles O47: each part of the invariant is kept on its own. -/
theorem stepKeepsInvariant : Obligations.StepKeepsInvariant := by
  intro s t ⟨hrom, hfault, hport⟩ h
  exact ⟨step_romFilled hrom h, step_faultAgrees hfault h, step_portAgrees hport h⟩

/-- Settles O11: a filled ROM leaves out the one case in which the step is refused. -/
theorem stepTotalOnFilledRom : Obligations.StepTotalOnFilledRom := by
  intro s hs
  rw [step]
  obtain ⟨_, hf⟩ | ⟨_, _, hf⟩ | ⟨_, hpc, hnone, hf⟩ | ⟨_, i, _, _, _, _, hf⟩ | ⟨_, _, _, _, _, _, hf⟩ :=
    s.fetched_cases <;> rw [hf]
  · exact ⟨_, rfl⟩
  · exact ⟨_, rfl⟩
  · have hsome := hs.read_isSome s.pc.toNat
    simp [hnone, hpc] at hsome
  · exact ⟨_, exec_eq_phases i s⟩
  · exact ⟨_, rfl⟩

/-- Settles O26: EXECUTE of these instructions writes one register and the carry. -/
theorem registerInstructionFrame : Obligations.RegisterInstructionFrame := by
  intro i s t h
  constructor
  · rintro (rfl | rfl | ⟨im, rfl⟩ | ⟨im, rfl⟩) <;>
      exact ⟨exec_b h, exec_samePort h rfl, exec_sameLaunchAndFault h⟩
  · rintro (rfl | rfl | ⟨im, rfl⟩ | ⟨im, rfl⟩) <;>
      exact ⟨exec_a h, exec_samePort h rfl, exec_sameLaunchAndFault h⟩

/-- Settles O27: EXECUTE of OUT writes the port and the carry. -/
theorem outputInstructionFrame : Obligations.OutputInstructionFrame := by
  rintro i s t (rfl | ⟨im, rfl⟩) h <;> exact ⟨exec_a h, exec_b h, exec_sameLaunchAndFault h⟩

/-- Settles O28: EXECUTE of a jump writes the carry alone. -/
theorem jumpInstructionFrame : Obligations.JumpInstructionFrame := by
  rintro i s t ⟨im, rfl | rfl⟩ h <;>
    exact ⟨exec_a h, exec_b h, exec_samePort h rfl, exec_sameLaunchAndFault h⟩

/-- Settles O39: EXECUTE of OUT sets the output and appends it to whatever trace there is; every other one leaves both
alone. -/
theorem outputNeverRead : Obligations.OutputNeverRead := by
  intro i s p tr
  obtain ⟨t, h⟩ : ∃ t, exec i s = .next t := ⟨_, exec_eq_phases i s⟩
  refine ⟨t, h, fun hw => ⟨exec_traced h hw, ?_⟩, fun hw => ?_⟩
  · refine exec_of_execute_eq_update (offControl_setPort t.portOutput (tr ++ [t.portOutput])) h rfl ?_
    rw [exec_portOutput h]
    cases i with
    | outB => rfl
    | outIm im => rfl
    | _ => cases hw
  · refine exec_of_execute_eq_update (offControl_setPort p tr) h rfl ?_
    cases i with
    | outB => cases hw
    | outIm im => cases hw
    | _ => rfl

/-- Settles O40: replacing the input passes through EXECUTE of every instruction but IN. -/
theorem inputReadByInAlone : Obligations.InputReadByInAlone := by
  intro i s v hA hB
  refine exec_keeps_update (offControl_setInput v) (s := s) rfl ?_
  cases i with
  | inA => exact absurd rfl hA
  | inB => exact absurd rfl hB
  | _ => rfl

/-- Settles O41: replacing a register is undone by EXECUTE of an instruction that overwrites it, and passes through
that of one that keeps it. -/
theorem registersReadWhereNamed : Obligations.RegistersReadWhereNamed := by
  refine ⟨fun i s v hmov hadd => ⟨?_, fun him hreg hin => ?_⟩, fun i s v hmov hout hadd => ⟨?_, fun him hreg hin => ?_⟩⟩
  · rintro (⟨im, rfl⟩ | rfl | rfl) <;> exact exec_eq_of_execute_eq rfl rfl
  · refine exec_keeps_update (offControl_writeReg .A v) (s := s) rfl ?_
    cases i with
    | movBA => exact absurd rfl hmov
    | addAIm im => exact absurd rfl (hadd im)
    | movAIm im => exact absurd rfl (him im)
    | movAB => exact absurd rfl hreg
    | inA => exact absurd rfl hin
    | _ => rfl
  · rintro (⟨im, rfl⟩ | rfl | rfl) <;> exact exec_eq_of_execute_eq rfl rfl
  · refine exec_keeps_update (offControl_writeReg .B v) (s := s) rfl ?_
    cases i with
    | movAB => exact absurd rfl hmov
    | outB => exact absurd rfl hout
    | addBIm im => exact absurd rfl (hadd im)
    | movBIm im => exact absurd rfl (him im)
    | movBA => exact absurd rfl hreg
    | inB => exact absurd rfl hin
    | _ => rfl

/-- Settles O49: the launched state is the reset of a filled ROM, and the image's cells read as the image. -/
theorem launchPlacesImage : Obligations.LaunchPlacesImage := by
  intro image input hlen
  refine ⟨(State.reset.withLaunch image input).hostReset, ?_,
    (State.reset.withLaunch_romFilled input hlen).hostReset_inv, rfl, rfl, rfl, rfl, rfl, rfl, rfl, rfl, fun addr => ?_,
    State.reset.withLaunch_romLen_val input hlen, rfl⟩
  · simp [launch, imageWellFormed, Config.romCapacity, hlen]
  · have hread := Memory.read_cellsFrom 0 image addr
    rwa [Nat.zero_add] at hread

/-- Settles O45: `State.reset` is its own host reset, so the reset laws cover both. -/
theorem resetValues : Obligations.ResetValues := by
  intro s hs
  obtain ⟨u, rfl⟩ : ∃ u : State, s = u.hostReset := by
    rcases hs with rfl | ⟨u, h⟩
    · exact ⟨State.reset, rfl⟩
    · exact ⟨u, (Host.Outcome.next.inj h).symm⟩
  simp

/-- Settles O46: the empty ROM is filled, and reset is its own host reset. -/
theorem resetSatisfiesInvariant : Obligations.ResetSatisfiesInvariant :=
  State.RomFilled.hostReset_inv (s := State.reset) rfl

end Sys2Proof.Machine
end

section
/-! The statements on memory: FETCH reads the ROM below `rom_len` alone (R51), no step writes it (R52), and a ROM of
defined bytes takes no DecodeError (R77). -/

namespace Sys2Proof.Machine

/-! ### What FETCH and DECODE find -/

theorem State.fetched_of_pastEnd {s : State} (hrun : s.status = .running) (hend : s.romLen.val ≤ s.pc.toNat) :
    s.fetched = .pastEnd := by
  rw [State.fetched_of_running s hrun, State.fetchRunning, if_pos (by simpa [State.atEnd] using hend)]

theorem State.fetched_of_decode_ok {s : State} {ir : Byte} {i : Instr} (hrun : s.status = .running)
    (hpc : s.pc.toNat < s.romLen.val) (hir : s.rom.read s.pc.toNat = some ir) (hdec : decode ir = .ok i) :
    s.fetched = .instruction i := by
  rw [State.fetched_of_running s hrun, State.fetchRunning_of_byte s ir hpc hir, hdec]

/-! ### A ROM of defined bytes -/

/-- A ROM of defined bytes lists no byte that the decoder rejects (R77). -/
theorem State.RomDefined.decode_ne_error {s : State} (hs : s.RomDefined) {addr : Nat} {ir : Byte}
    (hir : s.rom.read addr = some ir) (e : DecodeReject) : decode ir ≠ .error e := fun hdec => by
  have hdefined := hs addr ir hir
  rw [not_wellFormed_of_decode_error hdec] at hdefined
  cases hdefined

theorem step_romDefined {s t : State} (hs : s.RomDefined) (h : step s = .next t) : t.RomDefined := by
  obtain ⟨hrom, -, -⟩ := step_keeps_launch h
  rwa [State.RomDefined, hrom]

/-- An executed instruction faults no engine that was not FAULTED (R162). -/
theorem exec_status_ne_faulted {i : Instr} {s t : State} (hs : s.status ≠ .faulted) (h : exec i s = .next t) :
    t.status ≠ .faulted := by
  rcases exec_status h with ht | ht
  · rwa [ht]
  · simp [ht]

/-- The one way into FAULTED is a DecodeError, which a ROM of defined bytes excludes (R102, R161). -/
theorem step_status_ne_faulted {s t : State} (hdef : s.RomDefined) (hs : s.status ≠ .faulted)
    (h : step s = .next t) : t.status ≠ .faulted := by
  obtain ⟨_, rfl⟩ | ⟨_, _, rfl⟩ | ⟨_, _, _, _, _, _, hexec⟩ | ⟨_, e, _, _, hir, hdec, _⟩ := step_cases s t h
  · exact hs
  · simp
  · exact exec_status_ne_faulted hs hexec
  · exact absurd hdec (hdef.decode_ne_error hir e)

/-! ### The statements -/

/-- Settles O43: the ROM is the same list of cells, so it reads the same everywhere. -/
theorem stepNeverWritesRom : Obligations.StepNeverWritesRom := by
  intro s t h addr
  obtain ⟨hrom, -, -⟩ := step_keeps_launch h
  rw [hrom]

/-- Settles O55: both parts are kept by each step on their own. -/
theorem definedRomNeverFaults : Obligations.DefinedRomNeverFaults :=
  fun _ _ hdef hs h => ⟨step_romDefined hdef h, step_status_ne_faulted hdef hs h⟩

/-- Settles O5: the step finds the instruction, and its arm for that is `exec` alone. -/
theorem stepRunsDecodedInstruction : Obligations.StepRunsDecodedInstruction := by
  intro s ir i hrun hpc hir hdec
  rw [step, State.fetched_of_decode_ok hrun hpc hir hdec]

/-- Settles O6: the check of `rom_len` comes before the ROM is read. -/
theorem fetchPastEndHalts : Obligations.FetchPastEndHalts := by
  intro s hrun hend
  rw [step, State.fetched_of_pastEnd hrun hend]
  rfl

end Sys2Proof.Machine
end

section
/-! The statements on the encoding: the decoder is the opcode map (30_encoding R76), the encoder and the assembler give
its bytes (R70, R94), and the parser reads what the disassembler prints (R86 to R99). -/

namespace Sys2Proof

open Laws.EncodesDefined (fieldsOf_append)

/-! ### The decoder -/

/-- The opcode map, both ways (R76): what is accepted, with the low nibble of five opcodes ignored (R74, log 8). -/
theorem decode_eq_ok_iff (ir : Byte) (i : Instr) :
    decode ir = .ok i ↔
      opField ir = opcodeOf i ∧ (i ∈ [Instr.movAB, .movBA, .inA, .inB, .outB] ∨ imField ir = immediateOf i) := by
  constructor
  · intro h
    unfold decode decodeFields fieldsOf at h
    -- Each row fixes the opcode and the instruction; the row of a reserved opcode gives none.
    split at h <;> cases h <;> exact ⟨‹_›, by simp [immediateOf]⟩
  · rintro ⟨hop, him⟩
    unfold decode decodeFields fieldsOf
    rw [hop]
    cases i <;> simp_all [opcodeOf, immediateOf]

/-- A rejected byte is rejected for its own opcode (R77). -/
theorem eq_reservedOpcode_of_decode_error {ir : Byte} {e : DecodeReject} (h : decode ir = .error e) :
    e = .reservedOpcode (opField ir) := by
  unfold decode decodeFields fieldsOf at h
  split at h <;> cases h
  rfl

theorem Fields.wellFormed_eq_false_iff (f : Fields) :
    f.wellFormed = false ↔ f.op = 0b1000#4 ∨ f.op = 0b1010#4 ∨ f.op = 0b1100#4 ∨ f.op = 0b1101#4 := by
  rw [Fields.wellFormed, Bool.not_eq_false', List.contains_iff_mem]
  simp [reservedOpcodes]

/-- The decoder rejects exactly the four reserved opcodes (R77). -/
theorem exists_decode_error_iff (ir : Byte) :
    (∃ e, decode ir = .error e) ↔
      opField ir = 0b1000#4 ∨ opField ir = 0b1010#4 ∨ opField ir = 0b1100#4 ∨ opField ir = 0b1101#4 := by
  refine Iff.trans ?_ (Fields.wellFormed_eq_false_iff (fieldsOf ir))
  rw [← Machine.decode_isOk]
  cases decode ir <;> simp [Except.isOk, Except.toBool]

/-! ### The encoder -/

theorem opField_append (op im : Nibble) : opField (op ++ im) = op := congrArg Fields.op (fieldsOf_append op im)

theorem imField_append (op im : Nibble) : imField (op ++ im) = im := congrArg Fields.im (fieldsOf_append op im)

/-- The byte of an instruction holds its opcode and its immediate, which is what the opcode map asks for (R79). -/
theorem decode_encode (i : Instr) : decode (encode i) = .ok i :=
  (decode_eq_ok_iff _ i).2 ⟨opField_append _ _, .inr (imField_append _ _)⟩

namespace Machine

/-! ### The assembler -/

theorem tokenOpcode_eq (t : Token) : tokenOpcode t = opcodeOf (tokenInstr t) := by
  cases t with
  | mov r im => cases r <;> rfl
  | add r im => cases r <;> rfl
  | inp r => cases r <;> rfl
  | _ => rfl

theorem tokenImmediate_eq (t : Token) : tokenImmediate t = immediateOf (tokenInstr t) := by
  cases t with
  | mov r im => cases r <;> rfl
  | add r im => cases r <;> rfl
  | inp r => cases r <;> rfl
  | _ => rfl

/-- The assembler's formula puts the opcode above the immediate (R94). -/
theorem tokenByte_eq_append (t : Token) : tokenByte t = tokenOpcode t ++ tokenImmediate t := by
  have hformula : ∀ op im : Nibble, (op.setWidth 8 <<< 4) ||| (im.setWidth 8 &&& 0xF) = op ++ im := by decide
  exact hformula _ _

theorem tokenByte_eq_encode (t : Token) : tokenByte t = encode (tokenInstr t) := by
  rw [tokenByte_eq_append, encode, tokenOpcode_eq, tokenImmediate_eq]

theorem decode_tokenByte (t : Token) : decode (tokenByte t) = .ok (tokenInstr t) := by
  rw [tokenByte_eq_encode, decode_encode]

theorem tokenByte_toNat (t : Token) :
    (tokenByte t).toNat = 16 * (tokenOpcode t).toNat + (tokenImmediate t).toNat := by
  rw [tokenByte_eq_append, BitVec.toNat_append, ← Nat.shiftLeft_add_eq_or_of_lt (tokenImmediate t).isLt,
    Nat.shiftLeft_eq]
  omega

theorem assemble_of_ne_nil {ts : List Token} (h : ts ≠ []) : assemble ts = .ok (ts.map tokenByte) := by
  cases ts with
  | nil => exact absurd rfl h
  | cons t ts => rfl

theorem eq_map_of_assemble {ts : List Token} {image : List Byte} (h : assemble ts = .ok image) :
    image = ts.map tokenByte := by
  cases ts with
  | nil => cases h
  | cons t ts => exact (Except.ok.inj h).symm

/-! ### The parser on what the disassembler prints -/

@[simp] theorem tokenInstr_instrToken (i : Instr) : tokenInstr (instrToken i) = i := by
  cases i <;> rfl

@[simp] theorem parseImm_immWord (im : Nibble) : parseImm (immWord im) = .ok im := by
  have hword : immOfWord (immWord im) = some im := by revert im; decide
  rw [parseImm, hword]

theorem immWord_ne_A (im : Nibble) : immWord im ≠ "A" := by revert im; decide

theorem immWord_ne_B (im : Nibble) : immWord im ≠ "B" := by revert im; decide

/-- An operand that was read is what the rest of the parser goes on with. -/
@[simp] theorem except_ok_bind {ε α β : Type} (v : α) (f : α → Except ε β) : (Except.ok v >>= f) = f v := rfl

theorem movToken_A_immWord (im : Nibble) : movToken "A" (immWord im) = .ok (.mov .A im) := by
  simp [movToken, parseReg, immWord_ne_B]

theorem movToken_B_immWord (im : Nibble) : movToken "B" (immWord im) = .ok (.mov .B im) := by
  simp [movToken, parseReg, immWord_ne_A]

theorem addToken_A_immWord (im : Nibble) : addToken "A" (immWord im) = .ok (.add .A im) := by
  simp [addToken, parseReg]

theorem addToken_B_immWord (im : Nibble) : addToken "B" (immWord im) = .ok (.add .B im) := by
  simp [addToken, parseReg]

theorem outToken_immWord (im : Nibble) : outToken (immWord im) = .ok (.outIm im) := by
  simp [outToken, immWord_ne_B]

section
variable {strict : Bool} {x y : String} {t : Token} {r : Reg} {im : Nibble} {words : List String}

theorem parse_mov (h : movToken x y = .ok t) :
    parse strict ("mov" :: x :: y :: words) = (t :: ·) <$> parse strict words := by
  simp [parse, mnemonicOf, h]

theorem parse_add (h : addToken x y = .ok t) :
    parse strict ("add" :: x :: y :: words) = (t :: ·) <$> parse strict words := by
  simp [parse, mnemonicOf, h]

theorem parse_jmp (h : parseImm x = .ok im) :
    parse strict ("jmp" :: x :: words) = (.jmp im :: ·) <$> parse strict words := by
  simp [parse, mnemonicOf, h]

theorem parse_jnc (h : parseImm x = .ok im) :
    parse strict ("jnc" :: x :: words) = (.jnc im :: ·) <$> parse strict words := by
  simp [parse, mnemonicOf, h]

theorem parse_in (h : parseReg x = .ok r) :
    parse strict ("in" :: x :: words) = (.inp r :: ·) <$> parse strict words := by
  simp [parse, mnemonicOf, h]

theorem parse_out (h : outToken x = .ok t) :
    parse strict ("out" :: x :: words) = (t :: ·) <$> parse strict words := by
  simp [parse, mnemonicOf, h]

end

/-- The words printed for an instruction are consumed as its one token (R87 to R89). -/
theorem parse_spell_append (strict : Bool) (i : Instr) (rest : List String) :
    parse strict (spell i ++ rest) = (instrToken i :: ·) <$> parse strict rest := by
  cases i with
  | addAIm im => exact parse_add (addToken_A_immWord im)
  | movAB => exact parse_mov rfl
  | inA => exact parse_in rfl
  | movAIm im => exact parse_mov (movToken_A_immWord im)
  | movBA => exact parse_mov rfl
  | addBIm im => exact parse_add (addToken_B_immWord im)
  | inB => exact parse_in rfl
  | movBIm im => exact parse_mov (movToken_B_immWord im)
  | outB => exact parse_out rfl
  | outIm im => exact parse_out (outToken_immWord im)
  | jnc im => exact parse_jnc (parseImm_immWord im)
  | jmp im => exact parse_jmp (parseImm_immWord im)

/-- The words printed for a program are consumed as its tokens, whatever words follow. -/
theorem parse_flatMap_spell_append (strict : Bool) (is : List Instr) (rest : List String) :
    parse strict (is.flatMap spell ++ rest) = (is.map instrToken ++ ·) <$> parse strict rest := by
  induction is with
  | nil => simp
  | cons i is ih =>
    rw [List.flatMap_cons, List.append_assoc, parse_spell_append, ih]
    simp

theorem parse_flatMap_spell (strict : Bool) (is : List Instr) :
    parse strict (is.flatMap spell) = .ok (is.map instrToken) := by
  have h := parse_flatMap_spell_append strict is []
  rw [List.append_nil] at h
  rw [h, parse]
  simp

theorem assembleWords_spell (strict : Bool) (i : Instr) : assembleWords strict (spell i) = .ok [encode i] := by
  have hparse : parse strict (spell i) = .ok [instrToken i] := by
    simpa using parse_flatMap_spell strict [i]
  rw [assembleWords, hparse, except_ok_bind, assemble, List.map_singleton, tokenByte_eq_encode, tokenInstr_instrToken]

theorem eq_spell_of_disassemble {ir : Byte} {words : List String} (h : disassemble ir = .ok words) :
    ∃ i, decode ir = .ok i ∧ words = spell i := by
  unfold disassemble at h
  split at h
  · exact ⟨_, ‹_›, (Except.ok.inj h).symm⟩
  · cases h

/-! ### A launched assembled program -/

theorem eq_hostReset_of_launch {image : List Byte} {input : Nibble} {s : State} (h : launch image input = .next s) :
    s = (State.reset.withLaunch image input).hostReset := by
  unfold launch at h
  split at h
  · exact (Host.Outcome.next.inj h).symm
  · cases h

/-- An image of defined bytes is a defined ROM when launched (R32, R77). -/
theorem launch_romDefined {image : List Byte} {input : Nibble} {s : State}
    (himage : ∀ ir ∈ image, (fieldsOf ir).wellFormed = true) (h : launch image input = .next s) : s.RomDefined := by
  intro addr ir hir
  rw [eq_hostReset_of_launch h, State.hostReset_rom, State.withLaunch_rom, ← Nat.zero_add addr,
    Memory.read_cellsFrom] at hir
  exact himage ir (List.mem_of_getElem? hir)

theorem assemble_wellFormed {ts : List Token} {image : List Byte} (h : assemble ts = .ok image) :
    ∀ ir ∈ image, (fieldsOf ir).wellFormed = true := by
  rw [eq_map_of_assemble h]
  intro ir hir
  obtain ⟨t, -, rfl⟩ := List.mem_map.1 hir
  rw [← decode_isOk, decode_tokenByte]
  rfl

/-! ### A placed word -/

/-- A byte written as a word of eight bits is that byte. -/
theorem byte_of_word (ir : Byte) : BitVec.ofNat 8 (ir.toNat % 2 ^ 8) = ir := by
  rw [Nat.mod_eq_of_lt ir.isLt, BitVec.ofNat_toNat, BitVec.setWidth_eq]

/-- A placed byte lies below `rom_len`, which is raised where the pc was past it (log 17). -/
theorem State.placeAtPc_pc_lt_romLen (s : State) (ir : Byte) :
    (s.placeAtPc ir).pc.toNat < (s.placeAtPc ir).romLen.val := by
  have hpc : s.pc.toNat < 16 := s.pc.isLt
  rw [State.placeAtPc_pc, State.placeAtPc_romLen]
  split
  · rw [Fin.val_ofNat, Nat.mod_eq_of_lt (by omega)]
    omega
  · rename_i hend
    rw [State.atEnd_iff] at hend
    omega

theorem State.placeAtPc_read_pc (s : State) (ir : Byte) :
    (s.placeAtPc ir).rom.read (s.placeAtPc ir).pc.toNat = some ir :=
  Memory.read_store_same _ _ _

/-! ### The statements -/

/-- Settles O1: the byte of an instruction is on the row of the opcode map that the instruction names. -/
theorem decodeEncodeRoundTrip : Obligations.DecodeEncodeRoundTrip := decode_encode

/-- Settles O56: the tokens are the instructions' own, and each stands for its instruction. -/
theorem parsePrintedProgram : Obligations.ParsePrintedProgram := by
  intro strict is
  exact ⟨is.map instrToken, parse_flatMap_spell strict is, by simp [Function.comp_def]⟩

/-- Settles O2: the rows of the opcode map, read in both directions. -/
theorem decodeIsTheOpcodeMap : Obligations.DecodeIsTheOpcodeMap := decode_eq_ok_iff

/-- Settles O3: what is not accepted is rejected, and the rejection carries the opcode. -/
theorem reservedOpcodesRefused : Obligations.ReservedOpcodesRefused := by
  intro ir
  refine ⟨?_, fun e => eq_reservedOpcode_of_decode_error⟩
  rw [← exists_decode_error_iff]
  cases decode ir <;> simp

/-- Settles O7: DECODE rejects the byte, and the step's arm for that is the DecodeError. -/
theorem reservedOpcodeTakesDecodeError : Obligations.ReservedOpcodeTakesDecodeError := by
  intro s ir hrun hpc hir hop
  obtain ⟨e, hdec⟩ := (exists_decode_error_iff ir).2 hop
  rw [step, State.fetched_of_running s hrun, State.fetchRunning_of_byte s ir hpc hir, hdec]
  rfl

/-- Settles O12: the placed byte is below `rom_len` and at the pc of a RUNNING state, so the step runs it. -/
theorem placedWordRunsNext : Obligations.PlacedWordRunsNext := by
  intro s ir i hdec
  constructor
  · rw [decodeTableWord, byte_of_word, hdec]
    rfl
  · rw [State.withFetchWord, byte_of_word]
    exact stepRunsDecodedInstruction _ ir i rfl (s.placeAtPc_pc_lt_romLen ir) (s.placeAtPc_read_pc ir) hdec

/-- Settles O52: the formula puts the same two nibbles together as the encoder. -/
theorem assemblerAgreesWithEncoder : Obligations.AssemblerAgreesWithEncoder := by
  intro t
  refine ⟨tokenByte_eq_encode t, decode_tokenByte t, ?_, ?_⟩
  · rw [tokenByte_eq_append, opField_append]
  · rw [tokenByte_eq_append, imField_append]

/-- Settles O53: `compile` maps the formula over the tokens. -/
theorem assembleOneBytePerToken : Obligations.AssembleOneBytePerToken := by
  refine ⟨rfl, fun ts hts => ⟨ts.map tokenByte, assemble_of_ne_nil hts, List.length_map _, fun k hk => ?_⟩, ?_⟩
  · simp [hk, tokenByte_toNat]
  · simp [tokenImmediate]

/-- Settles O54: every byte the assembler emits is defined, so the launched ROM is, and no step of it faults. -/
theorem assembledProgramsNeverFault : Obligations.AssembledProgramsNeverFault := by
  intro ts image input s t n hasm hlaunch hrun
  have hstart : s.RomDefined ∧ s.status ≠ .faulted :=
    ⟨launch_romDefined (assemble_wellFormed hasm) hlaunch, by simp [eq_hostReset_of_launch hlaunch]⟩
  have hend : t.RomDefined ∧ t.status ≠ .faulted :=
    runWithin_keeps (fun u => u.RomDefined ∧ u.status ≠ .faulted)
      (fun u v ⟨hdef, hu⟩ hstep => definedRomNeverFaults u v hdef hu hstep) n s t hstart hrun
  exact hend.2

/-- Settles O57: the text of a byte is that of its instruction, whose encoding has the byte's own opcode. -/
theorem disassemblyReassembles : Obligations.DisassemblyReassembles := by
  intro strict ir words h
  obtain ⟨i, hdec, rfl⟩ := eq_spell_of_disassemble h
  obtain ⟨hop, -⟩ := (decode_eq_ok_iff ir i).1 hdec
  exact ⟨encode i, assembleWords_spell strict i, by rw [decode_encode, hdec], by rw [encode, opField_append, hop]⟩

/-- Settles O4: each byte evaluates to its row. -/
theorem opcodeMapSampleBytes : Obligations.OpcodeMapSampleBytes :=
  ⟨rfl, rfl, rfl, rfl, rfl, rfl, rfl, rfl, rfl, rfl, rfl, rfl⟩

end Machine
end Sys2Proof
end

section
/-! SUPPORT. The cycle (40_cycle): where an executed instruction moves the pc, what it leaves in the carry, and how
runs under a budget compose. -/

namespace Sys2Proof.Machine

/-! ### The carry -/

theorem exec_completes (i : Instr) (s : State) : ∃ t, exec i s = .next t := ⟨_, exec_eq_phases i s⟩

@[simp] theorem State.moveOn_carry (s : State) (j : Option Nibble) : (s.moveOn j).carry = s.carry := by
  cases j <;> simp [State.moveOn]

theorem exec_carry {i : Instr} {s t : State} (h : exec i s = .next t) : t.carry = (s.execute i).carry := by
  simp [eq_phases_of_exec h]

/-- EXECUTE of every instruction but ADD clears the carry (R105). -/
theorem State.execute_carry_of_not_add (s : State) {i : Instr} (hi : isAdd i = false) :
    (s.execute i).carry = false := by
  cases i with
  | addAIm im => cases hi
  | addBIm im => cases hi
  | _ => rfl

/-- EXECUTE reads no carry: there is no carry-in (R106). -/
theorem State.execute_setCarry (s : State) (c : Bool) (i : Instr) : (s.setCarry c).execute i = s.execute i := by
  cases i <;> rfl

/-! ### The move of the pc -/

@[simp] theorem State.execute_pc (s : State) (i : Instr) : (s.execute i).pc = s.pc := by
  cases i <;> rfl

/-- The jumps are JMP, and JNC with the carry clear (R140, R141). -/
theorem jumpTarget_eq_some_iff (i : Instr) (carry : Bool) (target : Nibble) :
    jumpTarget i carry = some target ↔ i = .jmp target ∨ (i = .jnc target ∧ carry = false) := by
  cases i with
  | jnc im => cases carry <;> simp [jumpTarget]
  | _ => simp [jumpTarget]

theorem jumpTarget_eq_none_iff (i : Instr) (carry : Bool) :
    jumpTarget i carry = none ↔ (∀ im, i ≠ .jmp im) ∧ (∀ im, i = .jnc im → carry = true) := by
  cases i with
  | jnc im => cases carry <;> simp [jumpTarget]
  | _ => simp [jumpTarget]

theorem jumpTarget_of_not_jump {i : Instr} (hi : isJump i = false) (carry : Bool) : jumpTarget i carry = none := by
  cases i with
  | jnc im => cases hi
  | jmp im => cases hi
  | _ => rfl

/-- The carry decides the target of JNC alone (R104). -/
theorem jumpTarget_carry_irrelevant {i : Instr} (hi : ∀ im, i ≠ .jnc im) (c c' : Bool) :
    jumpTarget i c = jumpTarget i c' := by
  cases i with
  | jnc im => exact absurd rfl (hi im)
  | _ => rfl

/-- An instruction without a target advances (R108, R110). -/
theorem exec_advancedTo {i : Instr} {s t : State} (h : exec i s = .next t) (hj : jumpTarget i s.carry = none) :
    s.AdvancedTo t := by
  rw [eq_phases_of_exec h, hj, State.moveOn, State.AdvancedTo, State.advance_pc, State.advance_status]
  simp

/-- An instruction with a target takes it (R108, R110). -/
theorem exec_jumpedTo {i : Instr} {s t : State} {target : Nibble} (h : exec i s = .next t)
    (hj : jumpTarget i s.carry = some target) : s.JumpedTo t target := by
  rw [eq_phases_of_exec h, hj, State.moveOn, State.JumpedTo, State.jumpTo_pc, State.jumpTo_status]
  simp

/-- An advance from below 15 adds one to the pc (R109). -/
theorem State.AdvancedTo.pc_of_lt {s t : State} (h : s.AdvancedTo t) (hpc : s.pc.toNat < 15) :
    t.pc.toNat = s.pc.toNat + 1 := by
  rw [h.1, Nat.mod_eq_of_lt (by omega)]

/-- An advance that does not halt adds one to the pc and stays below `rom_len`. -/
theorem State.AdvancedTo.pc_of_running {s t : State} (h : s.AdvancedTo t) (hrun : t.status = .running) :
    t.pc.toNat = s.pc.toNat + 1 ∧ t.pc.toNat < s.romLen.val := by
  obtain ⟨hpc, hstatus⟩ := h
  have hlen : s.romLen.val < 17 := s.romLen.isLt
  rw [hrun] at hstatus
  split at hstatus
  · cases hstatus
  · omega

/-- An advance of a RUNNING engine halts only with the successor past the end. -/
theorem State.AdvancedTo.end_of_halted {s t : State} (h : s.AdvancedTo t) (hrun : s.status = .running)
    (hhalt : t.status = .halted) : s.romLen.val ≤ s.pc.toNat + 1 := by
  obtain ⟨-, hstatus⟩ := h
  simpa [hhalt, hrun] using hstatus

theorem State.JumpedTo.pc_of_running {s t : State} {target : Nibble} (h : s.JumpedTo t target)
    (hrun : t.status = .running) : t.pc.toNat < s.romLen.val := by
  obtain ⟨rfl, hstatus⟩ := h
  rw [hrun] at hstatus
  split at hstatus
  · cases hstatus
  · omega

/-- A taken jump of a RUNNING engine halts only with the target past the end. -/
theorem State.JumpedTo.end_of_halted {s t : State} {target : Nibble} (h : s.JumpedTo t target)
    (hrun : s.status = .running) (hhalt : t.status = .halted) : s.romLen.val ≤ t.pc.toNat := by
  obtain ⟨rfl, hstatus⟩ := h
  simpa [hhalt, hrun] using hstatus

/-- An instruction that leaves the engine RUNNING leaves the pc below `rom_len`. -/
theorem exec_pc_lt_romLen {i : Instr} {s t : State} (h : exec i s = .next t) (hrun : t.status = .running) :
    t.pc.toNat < s.romLen.val := by
  cases hj : jumpTarget i s.carry with
  | none => exact ((exec_advancedTo h hj).pc_of_running hrun).2
  | some target => exact (exec_jumpedTo h hj).pc_of_running hrun

/-- An instruction that neither adds, jumps nor writes the port clears the carry, advances and keeps the port. -/
theorem exec_transfer {i : Instr} {s t : State} (h : exec i s = .next t) (hadd : isAdd i = false)
    (hjump : isJump i = false) (hout : writesPort i = false) :
    t.carry = false ∧ s.AdvancedTo t ∧ s.SamePort t ∧ s.SameLaunchAndFault t :=
  ⟨by rw [exec_carry h, s.execute_carry_of_not_add hadd], exec_advancedTo h (jumpTarget_of_not_jump hjump _),
    exec_samePort h hout, exec_sameLaunchAndFault h⟩

/-- A step that leaves the engine RUNNING was that of an instruction. -/
theorem exists_exec_of_step_running {s t : State} (h : step s = .next t) (hs : s.status = .running)
    (ht : t.status = .running) :
    ∃ ir i, s.rom.read s.pc.toNat = some ir ∧ decode ir = .ok i ∧ exec i s = .next t := by
  obtain ⟨hns, _⟩ | ⟨_, _, rfl⟩ | ⟨ir, i, _, _, hir, hdec, hexec⟩ | ⟨_, _, _, _, _, _, rfl⟩ := step_cases s t h
  · exact absurd hs hns
  · cases ht
  · exact ⟨ir, i, hir, hdec, hexec⟩
  · cases ht

/-! ### Runs -/

theorem exists_step_of_runWithin {n : Nat} {s t : State} (hrun : s.status = .running)
    (h : runWithin (n + 1) s = .next t) : ∃ u, step s = .next u ∧ runWithin n u = .next t := by
  cases hu : step s with
  | next u => exact ⟨u, rfl, by rwa [runWithin_step n s u hrun hu] at h⟩
  | fault f => simp [runWithin, hrun, hu] at h
  | refused r => simp [runWithin, hrun, hu] at h

/-- A larger budget is spent from where the smaller one ended. -/
theorem runWithin_add {n : Nat} {s t : State} (h : runWithin n s = .next t) (k : Nat) :
    runWithin (n + k) s = runWithin k t := by
  induction n generalizing s with
  | zero => rw [Nat.zero_add, Host.Outcome.next.inj h]
  | succ n ih =>
    by_cases hrun : s.status = .running
    · obtain ⟨u, hu, hrest⟩ := exists_step_of_runWithin hrun h
      rw [Nat.succ_add, runWithin_step _ s u hrun hu, ih hrest]
    · rw [runWithin_ended _ s hrun] at h ⊢
      rw [← Host.Outcome.next.inj h, runWithin_ended _ s hrun]

/-- A run that is RUNNING at its end was so at its start. -/
theorem running_of_runWithin {n : Nat} {s t : State} (h : runWithin n s = .next t) (ht : t.status = .running) :
    s.status = .running := by
  by_contra hs
  rw [runWithin_ended n s hs] at h
  exact hs (Host.Outcome.next.inj h ▸ ht)

/-- With a filled ROM a run answers a state under every budget. -/
theorem State.RomFilled.run_total {s : State} (hfill : s.RomFilled) (n : Nat) : ∃ t, runWithin n s = .next t := by
  induction n generalizing s with
  | zero => exact ⟨s, rfl⟩
  | succ n ih =>
    by_cases hs : s.status = .running
    · obtain ⟨u, hu⟩ := stepTotalOnFilledRom s hfill
      rw [runWithin_step n s u hs hu]
      exact ih (step_romFilled hfill hu)
    · exact ⟨s, runWithin_ended _ s hs⟩

/-! ### A ROM without jumps -/

/-- No byte of the ROM is a JMP or a JNC. -/
def State.RomJumpFree (s : State) : Prop :=
  ∀ addr ir i, s.rom.read addr = some ir → decode ir = .ok i → isJump i = false

theorem step_romJumpFree {s t : State} (hs : s.RomJumpFree) (h : step s = .next t) : t.RomJumpFree := by
  obtain ⟨hrom, -, -⟩ := step_keeps_launch h
  rwa [State.RomJumpFree, hrom]

/-- Without jumps, a step that leaves the engine RUNNING moves the pc up by one. -/
theorem State.RomJumpFree.step_pc {s t : State} (hfree : s.RomJumpFree) (h : step s = .next t)
    (hs : s.status = .running) (ht : t.status = .running) : t.pc.toNat = s.pc.toNat + 1 := by
  obtain ⟨ir, i, hir, hdec, hexec⟩ := exists_exec_of_step_running h hs ht
  have hj := jumpTarget_of_not_jump (hfree _ ir i hir hdec) s.carry
  exact ((exec_advancedTo hexec hj).pc_of_running ht).1

/-- Without jumps, a run still RUNNING after `n` steps has moved the pc up by `n`. -/
theorem State.RomJumpFree.run_pc {n : Nat} {s t : State} (hfree : s.RomJumpFree) (h : runWithin n s = .next t)
    (ht : t.status = .running) : t.pc.toNat = s.pc.toNat + n := by
  induction n generalizing s with
  | zero => rw [Host.Outcome.next.inj h, Nat.add_zero]
  | succ n ih =>
    have hs := running_of_runWithin h ht
    obtain ⟨u, hu, hrest⟩ := exists_step_of_runWithin hs h
    have hpc := hfree.step_pc hu hs (running_of_runWithin hrest ht)
    have hend := ih (step_romJumpFree hfree hu) hrest
    omega

end Sys2Proof.Machine
end

section
/-! The statements on the cycle: the carry, the move of the pc, the HALT check, and the result of each instruction. -/

namespace Sys2Proof.Machine

/-! ### Carry and control -/

/-- Settles O21: the carry of the start decides the target, and EXECUTE clears it either way. -/
theorem jncResult : Obligations.JncResult := by
  intro s im
  obtain ⟨t, h⟩ := exec_completes (.jnc im) s
  refine ⟨t, h, fun hc => exec_jumpedTo h ?_, fun hc => exec_advancedTo h ?_, exec_carry h, exec_a h, exec_b h,
    exec_samePort h rfl, exec_sameLaunchAndFault h⟩
  · exact (jumpTarget_eq_some_iff _ _ _).2 (.inr ⟨rfl, hc⟩)
  · rw [hc]; rfl

/-- Settles O29: the carry is EXECUTE's; the halt at FETCH and the DecodeError write other fields. -/
theorem carryAfterStep : Obligations.CarryAfterStep := by
  refine ⟨fun i s t h => ⟨?_, ?_, fun hi => ?_⟩, fun s hrun hend => ?_, fun s ir hrun hpc hir hbad => ?_⟩
  · rintro im rfl
    exact (exec_carry h).trans (sumCarry_eq s.a im)
  · rintro im rfl
    exact (exec_carry h).trans (sumCarry_eq s.b im)
  · rw [exec_carry h, s.execute_carry_of_not_add hi]
  · exact ⟨_, fetchPastEndHalts s hrun hend, rfl, rfl⟩
  · have hop := (Fields.wellFormed_eq_false_iff (fieldsOf ir)).1 hbad
    exact ⟨_, reservedOpcodeTakesDecodeError s ir hrun hpc hir hop, rfl, rfl⟩

/-- Settles O30: EXECUTE overwrites the carry unread, and only the target of JNC depends on it. -/
theorem carryReadByJncAlone : Obligations.CarryReadByJncAlone := by
  refine ⟨fun i s c hi => ?_, fun s im => ?_, fun s im => ⟨?_, ?_⟩⟩
  · change exec i (s.setCarry c) = exec i s
    rw [exec_eq_phases, exec_eq_phases, s.execute_setCarry, jumpTarget_carry_irrelevant hi _ s.carry]
  · obtain ⟨t, h, hjump, hadvance, -⟩ := jncResult s im
    exact ⟨t, h, fun hc => (hjump hc).1, fun hc hpc => (hadvance hc).pc_of_lt hpc⟩
  · exact ⟨_, exec_addAIm im s, by rw [State.addInto_A_a, sumResult_toNat]⟩
  · exact ⟨_, exec_addBIm im s, by rw [State.addInto_B_b, sumResult_toNat]⟩

/-- Settles O33: the instruction before left the carry clear, and with it clear JNC has its target. -/
theorem jncAfterNonAddTaken : Obligations.JncAfterNonAddTaken := by
  intro i s target hi
  obtain ⟨t, h⟩ := exec_completes i s
  obtain ⟨u, hu, hjump, -⟩ := jncResult t target
  exact ⟨t, u, h, hu, hjump (by rw [exec_carry h, s.execute_carry_of_not_add hi])⟩

/-- Settles O34: EXECUTE writes neither the fault record nor the status, and the HALT check can only halt. -/
theorem noInstructionFaults : Obligations.NoInstructionFaults := by
  intro i s
  obtain ⟨t, h⟩ := exec_completes i s
  exact ⟨t, h, exec_fault h, exec_status h⟩

/-- Settles O35: of the things a step can do, a halt at FETCH and an instruction's HALT check lead to HALTED; the check
is that of an advance or of a jump, as there is a target or not. -/
theorem haltsOnlyAtEndOfMemory : Obligations.HaltsOnlyAtEndOfMemory := by
  intro s t hrun h hhalt
  obtain ⟨hns, _⟩ | ⟨_, hend, _⟩ | ⟨ir, i, _, _, hir, hdec, hexec⟩ | ⟨_, _, _, _, _, _, rfl⟩ := step_cases s t h
  · exact absurd hrun hns
  · exact .inl hend
  · refine .inr ⟨ir, i, hir, hdec, ?_⟩
    cases hj : jumpTarget i s.carry with
    | none =>
      have hadvance := exec_advancedTo hexec hj
      exact .inl ⟨hadvance.end_of_halted hrun hhalt, (jumpTarget_eq_none_iff i s.carry).1 hj⟩
    | some target =>
      have hjump := exec_jumpedTo hexec hj
      refine .inr ⟨hjump.end_of_halted hrun hhalt, ?_⟩
      rw [hjump.1]
      exact (jumpTarget_eq_some_iff i s.carry target).1 hj
  · cases hhalt

/-- Settles O36: such a step was an instruction's, and its HALT check compared the new pc with `rom_len`. -/
theorem runningPcStaysInRom : Obligations.RunningPcStaysInRom := by
  intro s t hs h ht
  obtain ⟨_, _, _, _, hexec⟩ := exists_exec_of_step_running h hs ht
  rw [exec_romLen hexec]
  exact exec_pc_lt_romLen hexec ht

/-- Settles O38: still RUNNING after 16 steps, the pc would be 16 or more. -/
theorem straightLineRunEnds : Obligations.StraightLineRunEnds := by
  intro s hfill hfree
  obtain ⟨t, h⟩ := hfill.run_total 16
  refine ⟨t, h, fun ht => ?_⟩
  have hpc := State.RomJumpFree.run_pc hfree h ht
  have hlt : t.pc.toNat < 16 := t.pc.isLt
  omega

/-- Settles O51: the rest of the budget is spent in the ended state, which stays. -/
theorem largerBudgetSameEnd : Obligations.LargerBudgetSameEnd := by
  intro n k s t h ht
  rw [runWithin_add h, runWithin_ended k t ht]

/-! ### The result of each instruction -/

/-- Settles O13: EXECUTE writes A and the carry, and there is no target. -/
theorem movAImmediateResult : Obligations.MovAImmediateResult := by
  intro s im
  obtain ⟨t, h⟩ := exec_completes (.movAIm im) s
  exact ⟨t, h, exec_a h, exec_b h, exec_transfer h rfl rfl rfl⟩

/-- Settles O14: EXECUTE writes B and the carry, and there is no target. -/
theorem movBImmediateResult : Obligations.MovBImmediateResult := by
  intro s im
  obtain ⟨t, h⟩ := exec_completes (.movBIm im) s
  exact ⟨t, h, exec_b h, exec_a h, exec_transfer h rfl rfl rfl⟩

/-- Settles O15: EXECUTE writes A from B, and the carry. -/
theorem movAFromBResult : Obligations.MovAFromBResult := by
  intro s
  obtain ⟨t, h⟩ := exec_completes .movAB s
  exact ⟨t, h, exec_a h, exec_b h, exec_transfer h rfl rfl rfl⟩

/-- Settles O16: EXECUTE writes B from A, and the carry. -/
theorem movBFromAResult : Obligations.MovBFromAResult := by
  intro s
  obtain ⟨t, h⟩ := exec_completes .movBA s
  exact ⟨t, h, exec_b h, exec_a h, exec_transfer h rfl rfl rfl⟩

/-- Settles O19: an ADD has no target, so it advances. -/
theorem addAdvances : Obligations.AddAdvances := by
  intro s im
  obtain ⟨t, h⟩ := exec_completes (.addAIm im) s
  obtain ⟨u, hu⟩ := exec_completes (.addBIm im) s
  exact ⟨⟨t, h, exec_advancedTo h rfl⟩, ⟨u, hu, exec_advancedTo hu rfl⟩⟩

/-- Settles O22: EXECUTE writes A from the input, and the carry. -/
theorem inAResult : Obligations.InAResult := by
  intro s
  obtain ⟨t, h⟩ := exec_completes .inA s
  exact ⟨t, h, exec_a h, exec_b h, exec_transfer h rfl rfl rfl⟩

/-- Settles O23: EXECUTE writes B from the input, and the carry. -/
theorem inBResult : Obligations.InBResult := by
  intro s
  obtain ⟨t, h⟩ := exec_completes .inB s
  exact ⟨t, h, exec_b h, exec_a h, exec_transfer h rfl rfl rfl⟩

/-- Settles O24: EXECUTE writes the port from B, and the carry. -/
theorem outBResult : Obligations.OutBResult := by
  intro s
  obtain ⟨t, h⟩ := exec_completes .outB s
  exact ⟨t, h, exec_portOutput h, exec_outTrace h, exec_a h, exec_b h, exec_carry h, exec_advancedTo h rfl,
    exec_sameLaunchAndFault h⟩

/-- Settles O25: EXECUTE writes the port and the carry. -/
theorem outImmediateResult : Obligations.OutImmediateResult := by
  intro s im
  obtain ⟨t, h⟩ := exec_completes (.outIm im) s
  exact ⟨t, h, exec_portOutput h, exec_outTrace h, exec_a h, exec_b h, exec_carry h, exec_advancedTo h rfl,
    exec_sameLaunchAndFault h⟩

/-! ### The step after reset -/

/-- Settles O59: the reset state is RUNNING at pc 0 with the same ROM, so the step runs the byte there. -/
theorem resetRunsFirstInstruction : Obligations.ResetRunsFirstInstruction := by
  intro s ir i hlen hir hdec
  exact ⟨s.hostReset, rfl, stepRunsDecodedInstruction s.hostReset ir i rfl hlen hir hdec⟩

end Sys2Proof.Machine
end

section
/-! The statements on ADD (42_add): the result of each form, and the carry that a JNC right after it tests. -/

namespace Sys2Proof.Machine

/-- The carry an ADD A leaves is its carry-out (R130). -/
theorem exec_addAIm_carry {s t : State} {im : Nibble} (h : exec (.addAIm im) s = .next t) :
    t.carry = decide (15 < s.a.toNat + im.toNat) :=
  (exec_carry h).trans (sumCarry_eq s.a im)

/-- The carry an ADD B leaves is its carry-out (R131). -/
theorem exec_addBIm_carry {s t : State} {im : Nibble} (h : exec (.addBIm im) s = .next t) :
    t.carry = decide (15 < s.b.toNat + im.toNat) :=
  (exec_carry h).trans (sumCarry_eq s.b im)

/-- Settles O17: EXECUTE writes the low four bits of the sum to A and the fifth to the carry, and there is no target. -/
theorem addAImmediateResult : Obligations.AddAImmediateResult := by
  intro s im
  obtain ⟨t, h⟩ := exec_completes (.addAIm im) s
  have hsum : t.a = sumResult s.a im := exec_a h
  exact ⟨decode_encode (.addAIm im), t, h, by rw [hsum, sumResult_toNat], exec_addAIm_carry h,
    (exec_advancedTo h rfl).pc_of_lt, exec_b h, exec_samePort h rfl, exec_sameLaunchAndFault h⟩

/-- Settles O18: EXECUTE writes the low four bits of the sum to B and the fifth to the carry, and there is no target. -/
theorem addBImmediateResult : Obligations.AddBImmediateResult := by
  intro s im
  obtain ⟨t, h⟩ := exec_completes (.addBIm im) s
  have hsum : t.b = sumResult s.b im := exec_b h
  exact ⟨decode_encode (.addBIm im), t, h, by rw [hsum, sumResult_toNat], exec_addBIm_carry h,
    (exec_advancedTo h rfl).pc_of_lt, exec_a h, exec_samePort h rfl, exec_sameLaunchAndFault h⟩

/-- Settles O32: the carry JNC starts with is the one ADD A left, set exactly when the sum exceeds 15. -/
theorem jncSeesCarryOfAdd : Obligations.JncSeesCarryOfAdd := by
  intro s im target
  obtain ⟨t, h⟩ := exec_completes (.addAIm im) s
  obtain ⟨u, hu, hjump, hadvance, -⟩ := jncResult t target
  have hcarry := exec_addAIm_carry h
  refine ⟨t, u, h, hu, fun hfits => hjump ?_, fun hexceeds => hadvance ?_⟩
  · rw [hcarry, decide_eq_false (by omega)]
  · rw [hcarry, decide_eq_true hexceeds]

end Sys2Proof.Machine
end

section
/-! The statements on the jumps (43_jump): the result of JMP, and the endless run of a jump to its own address. -/

namespace Sys2Proof.Machine

/-- EXECUTE of a taken jump clears the carry and writes nothing else (R140, R141). -/
theorem State.execute_of_jumpTarget {s : State} {i : Instr} {carry : Bool} {target : Nibble}
    (hj : jumpTarget i carry = some target) : s.execute i = s.clearCarry := by
  obtain rfl | ⟨rfl, -⟩ := (jumpTarget_eq_some_iff i carry target).1 hj <;> rfl

/-- Below `rom_len`, a jump of the pc to where it stands changes nothing: the HALT check does not halt (R110). -/
theorem State.jumpTo_pc_self {s : State} (hpc : s.pc.toNat < s.romLen.val) : s.jumpTo s.pc = s := by
  have hend : s.atEnd = false := decide_eq_false (Nat.not_le.2 hpc)
  change s.haltCheck false = s
  rw [State.haltCheck, hend]
  rfl

/-- The step of a jump to its own address clears the carry alone (R113, R140, R141). -/
theorem step_selfJump {s : State} {ir : Byte} {i : Instr} (hrun : s.status = .running)
    (hpc : s.pc.toNat < s.romLen.val) (hir : s.rom.read s.pc.toNat = some ir) (hdec : decode ir = .ok i)
    (hj : jumpTarget i s.carry = some s.pc) : step s = .next s.clearCarry := by
  have hstay : s.clearCarry.jumpTo s.pc = s.clearCarry := State.jumpTo_pc_self (s := s.clearCarry) hpc
  rw [stepRunsDecodedInstruction s ir i hrun hpc hir hdec, exec_eq_phases, hj, State.execute_of_jumpTarget hj,
    State.moveOn, hstay]

/-- A state that steps to itself is where its run is, under every budget. -/
theorem runWithin_of_step_self {s : State} (h : step s = .next s) (n : Nat) : runWithin n s = .next s := by
  induction n with
  | zero => rfl
  | succ n ih =>
    by_cases hrun : s.status = .running
    · rw [runWithin_step n s s hrun h, ih]
    · exact runWithin_ended _ s hrun

/-- Settles O37: the first step clears the carry, and the state with the carry clear steps to itself. -/
theorem selfJumpNeverEnds : Obligations.SelfJumpNeverEnds := by
  intro s ir hrun hpc hir hself n
  obtain ⟨i, hdec, hj, hjclear⟩ :
      ∃ i, decode ir = .ok i ∧ jumpTarget i s.carry = some s.pc ∧ jumpTarget i false = some s.pc := by
    rcases hself with hdec | ⟨hdec, hc⟩
    · exact ⟨_, hdec, rfl, rfl⟩
    · exact ⟨_, hdec, by rw [hc]; rfl, rfl⟩
  have hfirst : step s = .next s.clearCarry := step_selfJump hrun hpc hir hdec hj
  have hloop : step s.clearCarry = .next s.clearCarry := step_selfJump (s := s.clearCarry) hrun hpc hir hdec hjclear
  rw [runWithin_step n s _ hrun hfirst, runWithin_of_step_self hloop]
  rfl

/-- Settles O20: JMP always has its target, and EXECUTE clears the carry alone. -/
theorem jmpResult : Obligations.JmpResult := by
  intro s im
  obtain ⟨t, h⟩ := exec_completes (.jmp im) s
  exact ⟨decode_encode (.jmp im), t, h, exec_jumpedTo h rfl, exec_carry h, exec_a h, exec_b h, exec_samePort h rfl,
    exec_sameLaunchAndFault h⟩

end Sys2Proof.Machine
end

section
/-! The statement on the host's reset (60_exceptions): the one way out of HALTED and FAULTED. -/

namespace Sys2Proof.Machine

/-- Settles O9: the answer is `hostReset`, which writes the status, the pc and the fault record at every state alike and
takes the launch configuration from the state. -/
theorem resetLeavesTerminalStates : Obligations.ResetLeavesTerminalStates := by
  intro s
  exact ⟨s.hostReset, rfl, s.hostReset_status, s.hostReset_pc, s.hostReset_fault,
    fun addr => congrArg (·.read addr) s.hostReset_rom, s.hostReset_romLen, s.hostReset_portInput⟩

end Sys2Proof.Machine
end

section
/-! The statements on reset and hazards (70_reset_and_hazards): what reset and a run keep of the launch, and the two
orderings inside a jump's step. -/

namespace Sys2Proof.Machine

/-! ### The launch configuration -/

/-- `t` has the launch configuration of `s`, cell for cell (R181). -/
def State.SameLaunch (s t : State) : Prop := t.rom = s.rom ∧ t.romLen = s.romLen ∧ t.portInput = s.portInput

theorem State.sameLaunch_refl (s : State) : s.SameLaunch s := ⟨rfl, rfl, rfl⟩

theorem State.sameLaunch_hostReset (s : State) : s.SameLaunch s.hostReset :=
  ⟨s.hostReset_rom, s.hostReset_romLen, s.hostReset_portInput⟩

theorem State.SameLaunch.trans {s t u : State} (hst : s.SameLaunch t) (htu : t.SameLaunch u) : s.SameLaunch u := by
  obtain ⟨hrom, hlen, hinput⟩ := hst
  obtain ⟨hrom', hlen', hinput'⟩ := htu
  exact ⟨hrom'.trans hrom, hlen'.trans hlen, hinput'.trans hinput⟩

/-- With the same launch configuration every ROM address reads the same. -/
theorem State.SameLaunch.reads {s t : State} (h : s.SameLaunch t) :
    (∀ addr, t.rom.read addr = s.rom.read addr) ∧ t.romLen = s.romLen ∧ t.portInput = s.portInput := by
  obtain ⟨hrom, hlen, hinput⟩ := h
  exact ⟨fun addr => congrArg (·.read addr) hrom, hlen, hinput⟩

/-- No run changes the launch configuration (R41, R181). -/
theorem runWithin_sameLaunch {n : Nat} {s t : State} (h : runWithin n s = .next t) : s.SameLaunch t :=
  runWithin_keeps s.SameLaunch (fun _ _ hkept hstep => hkept.trans (step_keeps_launch hstep)) n s t s.sameLaunch_refl h

/-! ### The statements -/

theorem eq_hostReset_of_serve_rst {s t : State} (h : serve .rst s = .next t) : t = s.hostReset :=
  (Host.Outcome.next.inj h).symm

/-- Settles O31: the pc of a taken jump is its target, and JNC has one exactly when the carry of the start is clear,
although EXECUTE clears the carry either way. -/
theorem jumpNotIncremented : Obligations.JumpNotIncremented := by
  intro s im
  obtain ⟨-, t, hjmp, hjumped, -⟩ := jmpResult s im
  obtain ⟨u, hjnc, htaken, hnotTaken, hcarry, -⟩ := jncResult s im
  exact ⟨⟨t, hjmp, hjumped.1⟩, u, hjnc, hcarry, fun hc => (htaken hc).1, fun hc => (hnotTaken hc).pc_of_lt⟩

/-- Settles O44: reset takes the launch configuration from the state, and a run keeps it step by step. -/
theorem launchStaysFixed : Obligations.LaunchStaysFixed := by
  refine ⟨fun s t h => ?_, fun n s t h => (runWithin_sameLaunch h).reads⟩
  rw [eq_hostReset_of_serve_rst h]
  exact s.sameLaunch_hostReset.reads

/-- Settles O48: the answer is `hostReset`, which meets the invariant when the ROM is filled. -/
theorem hostResetGivesInvariant : Obligations.HostResetGivesInvariant := by
  intro s t hfill h
  rw [eq_hostReset_of_serve_rst h]
  exact hfill.hostReset_inv

end Sys2Proof.Machine
end

section
/-! The statements on the edges of the step and of the load: a terminal state stays, a missing byte and an overlong
image are refused by name, and the trace grows by OUT alone. -/

namespace Sys2Proof.Machine

theorem State.fetched_of_missing_byte {s : State} (hrun : s.status = .running) (hpc : s.pc.toNat < s.romLen.val)
    (hnone : s.rom.read s.pc.toNat = none) : s.fetched = .absent := by
  have hend : s.atEnd = false := decide_eq_false (Nat.not_le.2 hpc)
  rw [State.fetched_of_running s hrun, State.fetchRunning, hend, hnone]
  rfl

/-- Settles O8: the step finds nothing to do, and its arm for that answers the state itself. -/
theorem terminalStatesStay : Obligations.TerminalStatesStay := by
  intro s hs
  rw [step, State.fetched_of_ended s hs]

/-- Settles O10: FETCH finds no byte, and the step's arm for that is the refusal. -/
theorem missingRomByteRefused : Obligations.MissingRomByteRefused := by
  intro s hrun hpc hnone
  rw [step, State.fetched_of_missing_byte hrun hpc hnone]

theorem not_imageWellFormed_of_overlong {image : List Byte} (h : 16 < image.length) :
    imageWellFormed image = false :=
  decide_eq_false (Nat.not_le.2 h)

/-- Settles O50: the image is not well formed, and launch asks that first. -/
theorem overlongImageRefused : Obligations.OverlongImageRefused := by
  intro image input hlen
  rw [launch, not_imageWellFormed_of_overlong hlen]
  rfl

/-- Settles O42: `out_valid` and the step read the same fetch; only an instruction writes the port, and then exactly
an OUT. -/
theorem traceGrowsExactlyByOut : Obligations.TraceGrowsExactlyByOut := by
  intro s t h
  rw [step] at h
  rw [State.outValid]
  generalize s.fetched = found at h ⊢
  cases found with
  | instruction i => exact ⟨exec_traced h, exec_samePort h⟩
  | absent => cases h
  | idle | pastEnd | undefined ir =>
    cases h
    exact ⟨nofun, fun _ => ⟨rfl, rfl⟩⟩

end Sys2Proof.Machine
end

section
/-! The statement on unknown words (30_encoding R90): the parser skips one, or stops at it when strict. -/

namespace Sys2Proof.Machine

theorem parse_unknown_word {w : String} (hw : mnemonicOf w = none) (strict : Bool) (rest : List String) :
    parse strict (w :: rest) = if strict then .error (.unknownMnemonic w) else parse strict rest := by
  rw [parse]
  exact hw

/-- Settles O58: the printed instructions are consumed first, so the word stands in mnemonic position. -/
theorem unknownWordSkipped : Obligations.UnknownWordSkipped := by
  intro w is rest hw
  constructor
  · rw [parse_flatMap_spell_append, parse_flatMap_spell_append, parse_unknown_word hw]
    rfl
  · rw [parse_flatMap_spell_append, parse_unknown_word hw]
    rfl

end Sys2Proof.Machine
end

section
/-! The statement on what the host observes (40_cycle R114): a run's end, or else its endless trace, is determined. -/

namespace Sys2Proof.Machine

/-! ### The end of a run -/

/-- A state has an observation exactly when its run has ended. -/
theorem State.exists_observe_iff (s : State) : (∃ final, s.observe = some final) ↔ s.status ≠ .running := by
  rw [State.observe]
  by_cases hrun : s.status = .running <;> simp [hrun]

theorem not_running_of_observe {s : State} {final : Observation} (h : s.observe = some final) :
    s.status ≠ .running := s.exists_observe_iff.1 ⟨final, h⟩

/-- An ended run is at the same end under every larger budget (R114). -/
theorem runWithin_of_ended_le {n m : Nat} {s t : State} (h : runWithin n s = .next t) (ht : t.status ≠ .running)
    (hnm : n ≤ m) : runWithin m s = .next t := by
  obtain ⟨k, rfl⟩ := Nat.exists_eq_add_of_le hnm
  exact largerBudgetSameEnd n k s t h ht

/-- A run ends in one state, whatever budget shows it. -/
theorem runWithin_end_unique {n m : Nat} {s t u : State} (ht : runWithin n s = .next t) (hu : runWithin m s = .next u)
    (htend : t.status ≠ .running) (huend : u.status ≠ .running) : t = u := by
  have htmax := runWithin_of_ended_le ht htend (Nat.le_max_left n m)
  rw [runWithin_of_ended_le hu huend (Nat.le_max_right n m)] at htmax
  exact (Host.Outcome.next.inj htmax).symm

/-- With a filled ROM a run that does not end goes on under every budget. -/
theorem State.RomFilled.neverEnds {s : State} (hfill : s.RomFilled)
    (h : ∀ n t, runWithin n s = .next t → t.status = .running) : NeverEnds s := fun n => by
  obtain ⟨t, ht⟩ := hfill.run_total n
  exact ⟨t, ht, h n t ht⟩

/-! ### The trace of a run -/

/-- No step takes back what was output (R31). -/
theorem step_outTrace_prefix {s t : State} (h : step s = .next t) : s.outTrace <+: t.outTrace := by
  obtain ⟨hout, hsame⟩ := traceGrowsExactlyByOut s t h
  cases hv : s.outValid with
  | true => rw [hout hv]; exact List.prefix_append _ _
  | false => rw [(hsame hv).2]

theorem runWithin_outTrace_prefix {n : Nat} {s t : State} (h : runWithin n s = .next t) : s.outTrace <+: t.outTrace :=
  runWithin_keeps (s.outTrace <+: ·.outTrace) (fun _ _ hkept hstep => hkept.trans (step_outTrace_prefix hstep)) n s t
    List.prefix_rfl h

theorem State.RomFilled.traceWithin_prefix {s : State} (hfill : s.RomFilled) {n m : Nat} (hnm : n ≤ m) :
    traceWithin n s <+: traceWithin m s := by
  obtain ⟨k, rfl⟩ := Nat.exists_eq_add_of_le hnm
  obtain ⟨t, ht⟩ := hfill.run_total n
  obtain ⟨u, hu⟩ := hfill.run_total (n + k)
  rw [traceWithin_of_run n s t ht, traceWithin_of_run (n + k) s u hu]
  exact runWithin_outTrace_prefix (runWithin_add ht k ▸ hu)

/-- A larger budget shows every entry that a smaller one shows. -/
theorem State.RomFilled.traceWithin_entry_of_le {s : State} (hfill : s.RomFilled) {n m k : Nat} {v : Nibble}
    (hv : (traceWithin n s)[k]? = some v) (hnm : n ≤ m) : (traceWithin m s)[k]? = some v := by
  obtain ⟨hk, rfl⟩ := List.getElem?_eq_some_iff.1 hv
  exact List.prefix_iff_getElem?.1 (hfill.traceWithin_prefix hnm) k hk

/-- All budgets that show an entry of the trace show the same one. -/
theorem State.RomFilled.traceWithin_entry_unique {s : State} (hfill : s.RomFilled) {n m k : Nat} {v w : Nibble}
    (hv : (traceWithin n s)[k]? = some v) (hw : (traceWithin m s)[k]? = some w) : v = w := by
  have hvmax := hfill.traceWithin_entry_of_le hv (Nat.le_max_left n m)
  rw [hfill.traceWithin_entry_of_le hw (Nat.le_max_right n m)] at hvmax
  exact (Option.some.inj hvmax).symm

/-- A property that at most one value has is that of being the value of some option. -/
theorem exists_option_eq_some_iff {α : Type} {p : α → Prop} (hp : ∀ v w, p v → p w → v = w) :
    ∃ o : Option α, ∀ v, o = some v ↔ p v := by
  by_cases h : ∃ v, p v
  · obtain ⟨v, hv⟩ := h
    exact ⟨some v, fun w => ⟨fun hw => Option.some.inj hw ▸ hv, fun hw => congrArg some (hp v w hv hw)⟩⟩
  · exact ⟨none, fun w => ⟨nofun, fun hw => absurd ⟨w, hw⟩ h⟩⟩

/-- With a filled ROM the entries that budgets show make up one trace (log 22). -/
theorem State.RomFilled.exists_endlessTrace {s : State} (hfill : s.RomFilled) : ∃ trace, IsEndlessTrace s trace := by
  have hentry (k : Nat) : ∃ o : Option Nibble, ∀ v, o = some v ↔ ∃ n, (traceWithin n s)[k]? = some v :=
    exists_option_eq_some_iff fun _ _ ⟨_, hv⟩ ⟨_, hw⟩ => hfill.traceWithin_entry_unique hv hw
  choose trace htrace using hentry
  exact ⟨trace, htrace⟩

theorem IsEndlessTrace.unique {s : State} {f g : Nat → Option Nibble} (hf : IsEndlessTrace s f)
    (hg : IsEndlessTrace s g) : f = g :=
  funext fun k => Option.ext fun v => (hf k v).trans (hg k v).symm

/-! ### The observation of a run -/

/-- Every run with a filled ROM is observed (R114): at its end, or by its trace where there is none. -/
theorem State.RomFilled.exists_observes {s : State} (hfill : s.RomFilled) : ∃ o, Observes s o := by
  by_cases hends : ∃ n t, runWithin n s = .next t ∧ t.status ≠ .running
  · obtain ⟨n, t, ht, htend⟩ := hends
    obtain ⟨final, hfinal⟩ := t.exists_observe_iff.2 htend
    exact ⟨.ended final, n, t, ht, hfinal⟩
  · push Not at hends
    obtain ⟨trace, htrace⟩ := hfill.exists_endlessTrace
    exact ⟨.endless trace, hfill.neverEnds hends, htrace⟩

/-- A run that has an end is not endless. -/
theorem NeverEnds.not_observes_ended {s : State} (h : NeverEnds s) (final : Observation) :
    ¬ Observes s (.ended final) := by
  rintro ⟨n, t, ht, hfinal⟩
  obtain ⟨u, hu, hrun⟩ := h n
  rw [ht] at hu
  exact not_running_of_observe hfinal (Host.Outcome.next.inj hu ▸ hrun)

/-- No run has two observations: of two ends, of an end and none, and of two traces. -/
theorem Observes.unique {s : State} {o o' : RunObservation} (h : Observes s o) (h' : Observes s o') : o = o' := by
  match o, o', h, h' with
  | .ended final, .ended final', ⟨n, t, ht, hfinal⟩, ⟨m, u, hu, hfinal'⟩ =>
    obtain rfl := runWithin_end_unique ht hu (not_running_of_observe hfinal) (not_running_of_observe hfinal')
    rw [Option.some.inj (hfinal.symm.trans hfinal')]
  | .ended final, .endless _, h, ⟨hnever, _⟩ => exact absurd h (hnever.not_observes_ended final)
  | .endless _, .ended final, ⟨hnever, _⟩, h => exact absurd h (hnever.not_observes_ended final)
  | .endless _, .endless _, ⟨_, htrace⟩, ⟨_, htrace'⟩ => rw [htrace.unique htrace']

/-- Settles O60: an ended run stays at its end, and the trace of one that goes on only grows. -/
theorem runHasOneObservation : Obligations.RunHasOneObservation := by
  intro s hfill
  obtain ⟨o, ho⟩ := hfill.exists_observes
  exact ⟨o, ho, fun _ ho' => ho'.unique ho⟩

end Sys2Proof.Machine
end
